-- ==== Sys2Proof/Config.lean ====
section
/-! DEFINITION. The parameters of the hardware, all fixed by the spec (spec/00_scope.md R7).
The spec leaves no value free, so there is no free constant here. The opcode numbers, the one
parameter that a test could show wrong (92_eei_decisions.md D1), stand in Decode.lean. -/

namespace Sys2Proof.Config

/-- The highest address, 0xFFFF: the top of the range a fetch may use (R7, R30). -/
def topAddress : Int := 0xFFFF

/-- The number of memory words, one for each 16-bit address (R7, R50). -/
def memoryWords : Nat := 65536

end Sys2Proof.Config
end

