-- ==== Sys2Proof/Word.lean ====
section
/-! DEFINITION. The machine word and its two readings (spec/00_scope.md R7, R9). -/

namespace Sys2Proof

/-- A 16-bit value: the contents of a register or of one memory word, and a 16-bit address
(R7: register width, memory address width and memory unit are all 16 bits). -/
abbrev Word := BitVec 16

/-- The integer the pseudocode computes with: the unsigned value of a word, 0..0xFFFF (R9). -/
abbrev Word.val (w : Word) : Int := (w.toNat : Int)

end Sys2Proof
end

