-- ==== Sys2Proof/Syntax.lean ====
section
/-! DEFINITION. The instructions: one constructor for each row of spec/opcode_table.json
(spec/30_encoding.md R70 to R81), with the decoder's fields and the display labels. -/

namespace Sys2Proof

/-- A register index 0..7 (10_state.md R20). -/
inductive Reg where
  | r0 | r1 | r2 | r3 | r4 | r5 | r6 | r7
deriving DecidableEq, Repr

/-- The eight operations the 3-bit opcode field selects (30_encoding.md R77). -/
inductive Opcode where
  | add | addi | nand | lui | sw | lw | beq | jalr
deriving DecidableEq, Repr

/-- The decoder's outputs for one word: the opcode field and the fields of all three shapes
(10_state.md R24, 00_scope.md R12). `unused` is the RRR shape's bits 6..3, which belong to no field
of it (R72). -/
structure Fields where
  op : BitVec 3
  a : Reg
  b : Reg
  c : Reg
  unused : BitVec 4
  imm7 : BitVec 7
  imm10 : BitVec 10
deriving DecidableEq, Repr

/-- One instruction. An immediate is the field's bits as encoded; `ignored` holds the bits that no
rule reads (R79), kept so that an instruction and its word say the same. -/
inductive Instr where
  /-- ADD, shape RRR (R90). -/
  | add (a b c : Reg) (ignored : BitVec 4)
  /-- ADDI, shape RRI (R91). -/
  | addi (a b : Reg) (imm7 : BitVec 7)
  /-- NAND, shape RRR (R92). -/
  | nand (a b c : Reg) (ignored : BitVec 4)
  /-- LUI, shape RI (R93). -/
  | lui (a : Reg) (imm10 : BitVec 10)
  /-- SW, shape RRI (R100). -/
  | sw (a b : Reg) (imm7 : BitVec 7)
  /-- LW, shape RRI (R101). -/
  | lw (a b : Reg) (imm7 : BitVec 7)
  /-- BEQ, shape RRI (R110). -/
  | beq (a b : Reg) (imm7 : BitVec 7)
  /-- JALR, shape RRI, its immediate field not read (R111). -/
  | jalr (a b : Reg) (ignored : BitVec 7)
  /-- The halt form of JALR, A = B = 0 with any immediate (R113). -/
  | halt (ignored : BitVec 7)
  /-- The display alias `nop`: ADD with A = B = C = 0 (R80). Not a decoder row. -/
  | nop (ignored : BitVec 4)
  /-- The display alias `lli`: ADDI with A = B and an immediate in 1..63 (R80). Not a decoder row. -/
  | lli (a : Reg) (imm6 : BitVec 6)
deriving DecidableEq, Repr

/-- The two constructors that are display aliases of another row's words: the opcode table says of
each "Not a decoder row" (assumption log 13). -/
def Instr.isAlias : Instr → Bool
  | .add _ _ _ _ => false
  | .addi _ _ _ => false
  | .nand _ _ _ _ => false
  | .lui _ _ => false
  | .sw _ _ _ => false
  | .lw _ _ _ => false
  | .beq _ _ _ => false
  | .jalr _ _ _ => false
  | .halt _ => false
  | .nop _ => true
  | .lli _ _ => true

/-- A display label (R80): one of the three pseudo-mnemonics, or the opcode's own mnemonic. -/
inductive Display where
  | nop
  | lli
  | halt
  | plain (o : Opcode)
deriving DecidableEq, Repr

end Sys2Proof
end

