-- ==== Sys2Proof/WellFormed.lean ====
section
/-! DEFINITION. Which terms of Instr stand for a row of the opcode table. Field widths are in the
types already, so two checks remain (spec/30_encoding.md R77, R80). -/

namespace Sys2Proof

/-- A JALR is not the halt form, whose words select the halt-form row (R77, R78); an `lli` has an
immediate in 1..63, that is not 0 (R80). Every other term is well formed. -/
def Instr.wellFormed : Instr → Bool
  | .add _ _ _ _ => true
  | .addi _ _ _ => true
  | .nand _ _ _ _ => true
  | .lui _ _ => true
  | .sw _ _ _ => true
  | .lw _ _ _ => true
  | .beq _ _ _ => true
  | .jalr a b _ => !(decide (a = .r0) && decide (b = .r0))
  | .halt _ => true
  | .nop _ => true
  | .lli _ imm6 => decide (imm6 ≠ 0)

end Sys2Proof
end

