-- ==== Sys2Proof/Decode.lean ====
section
/-! DEFINITION. The decoder, the encoder, the display function and the assembly notation
(spec/30_encoding.md R70 to R81). -/

namespace Sys2Proof

/-! ### Bit fields (R71 to R75) -/

/-- The register a 3-bit field names (R75: register fields name `x[0]`..`x[7]` directly). -/
def Reg.ofBits (b : BitVec 3) : Reg :=
  match b.toNat with
  | 0 => .r0
  | 1 => .r1
  | 2 => .r2
  | 3 => .r3
  | 4 => .r4
  | 5 => .r5
  | 6 => .r6
  | _ => .r7

/-- A register's index, 0..7 (R20). -/
def Reg.index : Reg → Nat
  | .r0 => 0
  | .r1 => 1
  | .r2 => 2
  | .r3 => 3
  | .r4 => 4
  | .r5 => 5
  | .r6 => 6
  | .r7 => 7

/-- The opcode field, `w[15:13]` (R71). -/
def opField (w : Word) : BitVec 3 := w.extractLsb' 13 3

/-- The fields of all three shapes, by fixed position (R72 to R75, 10_state.md R24). -/
def decodeFields (w : Word) : Fields :=
  { op := opField w
    a := Reg.ofBits (w.extractLsb' 10 3)
    b := Reg.ofBits (w.extractLsb' 7 3)
    c := Reg.ofBits (w.extractLsb' 0 3)
    unused := w.extractLsb' 3 4
    imm7 := w.extractLsb' 0 7
    imm10 := w.extractLsb' 0 10 }

/-- `sext_7`: the 7-bit immediate as a signed integer, 64..127 standing for -64..-1 (00_scope.md R9,
30_encoding.md R75). -/
def sext7 (v : BitVec 7) : Int :=
  if 64 ≤ v.toNat then (v.toNat : Int) - 128 else (v.toNat : Int)

/-! ### The opcode map (R77) -/

/-- The opcode map as one table: the opcode numbered n stands at place n. ADD = 0 is the source's;
the other numbers are the spec's decision D1 (UNVERIFIED, unsafe: assumption log 1). -/
def opcodeTable : List Opcode :=
  [.add, .addi, .nand, .lui, .sw, .lw, .beq, .jalr]

/-- The opcode a 3-bit number selects. -/
def opcodeOf (n : BitVec 3) : Option Opcode := opcodeTable[n.toNat]?

/-- An opcode's number. -/
def opcodeNumber (o : Opcode) : Nat := opcodeTable.idxOf o

/-! ### The decoder (R76, R77, R79) -/

/-- Why a word is rejected. With all eight opcode numbers assigned no word is (R79); the reject
stands for the source's defensive `UnsupportedOpcode` (60_exceptions.md R122, assumption log 15). -/
inductive DecodeReject where
  | unsupportedOpcode (op : BitVec 3)
deriving DecidableEq, Repr

/-- The instruction of a word: the opcode selects the shape, and only that shape's fields are read
(R76). The halt-form row is taken before the JALR row (R77). The display aliases are no rows of the
decoder (R80, assumption log 13). -/
def decode (w : Word) : Except DecodeReject Instr :=
  let f := decodeFields w
  match opcodeOf f.op with
  | some .add => .ok (.add f.a f.b f.c f.unused)
  | some .addi => .ok (.addi f.a f.b f.imm7)
  | some .nand => .ok (.nand f.a f.b f.c f.unused)
  | some .lui => .ok (.lui f.a f.imm10)
  | some .sw => .ok (.sw f.a f.b f.imm7)
  | some .lw => .ok (.lw f.a f.b f.imm7)
  | some .beq => .ok (.beq f.a f.b f.imm7)
  | some .jalr =>
    if f.a = .r0 ∧ f.b = .r0 then .ok (.halt f.imm7) else .ok (.jalr f.a f.b f.imm7)
  | none => .error (.unsupportedOpcode f.op)

/-! ### The encoder (R81, with the ignored bits as the instruction holds them) -/

/-- `(op<<13) + (A<<10) + (B<<7) + low`, the sum every shape with two registers is assembled by
(R81); `low` is the 7 low bits. -/
def packAB (o : Opcode) (a b : Reg) (low : Nat) : Word :=
  BitVec.ofNat 16 (opcodeNumber o * 0x2000 + a.index * 0x400 + b.index * 0x80 + low)

/-- The word of an instruction. -/
def encode : Instr → Word
  | .add a b c x => packAB .add a b (x.toNat * 8 + c.index)
  | .addi a b imm => packAB .addi a b imm.toNat
  | .nand a b c x => packAB .nand a b (x.toNat * 8 + c.index)
  | .lui a imm => BitVec.ofNat 16 (opcodeNumber .lui * 0x2000 + a.index * 0x400 + imm.toNat)
  | .sw a b imm => packAB .sw a b imm.toNat
  | .lw a b imm => packAB .lw a b imm.toNat
  | .beq a b imm => packAB .beq a b imm.toNat
  | .jalr a b x => packAB .jalr a b x.toNat
  | .halt x => packAB .jalr .r0 .r0 x.toNat
  | .nop x => packAB .add .r0 .r0 (x.toNat * 8 + Reg.r0.index)
  | .lli a imm => packAB .addi a a imm.toNat

/-! ### Display labels and assembly text (R80, R81) -/

/-- The display label of an instruction, a pure function of its decoded fields (R80). It reads the
RRR fields only, so bits 6..3 do not matter (decision D18, assumption log 14). -/
def displayOf : Instr → Display
  | .add a b c _ => if a = .r0 ∧ b = .r0 ∧ c = .r0 then .nop else .plain .add
  | .addi a b imm => if a = b ∧ 0 < sext7 imm then .lli else .plain .addi
  | .nand _ _ _ _ => .plain .nand
  | .lui _ _ => .plain .lui
  | .sw _ _ _ => .plain .sw
  | .lw _ _ _ => .plain .lw
  | .beq _ _ _ => .plain .beq
  | .jalr a b _ => if a = .r0 ∧ b = .r0 then .halt else .plain .jalr
  | .halt _ => .halt
  | .nop _ => .nop
  | .lli _ _ => .lli

/-- `Display(w)` of R80. -/
def display (w : Word) : Except DecodeReject Display := (decode w).map displayOf

/-- An opcode's mnemonic in lower case (R80). -/
def mnemonicText : Opcode → String
  | .add => "add"
  | .addi => "addi"
  | .nand => "nand"
  | .lui => "lui"
  | .sw => "sw"
  | .lw => "lw"
  | .beq => "beq"
  | .jalr => "jalr"

/-- A display label as text (R80). -/
def displayText : Display → String
  | .nop => "nop"
  | .lli => "lli"
  | .halt => "halt"
  | .plain o => mnemonicText o

/-- A register's assembly name, `r0`..`r7` (R81, decision D8). -/
def regText (r : Reg) : String := "r" ++ toString r.index

/-- The text of a mnemonic and its operands in field order, separated by commas (R81). -/
def asmText (m : String) (operands : List String) : String :=
  m ++ " " ++ String.intercalate ", " operands

/-- An instruction in the notation of R81 (decision D8, assumption log 22). -/
def assembly : Instr → String
  | .add a b c _ => asmText "add" [regText a, regText b, regText c]
  | .addi a b imm => asmText "addi" [regText a, regText b, toString (sext7 imm)]
  | .nand a b c _ => asmText "nand" [regText a, regText b, regText c]
  | .lui a imm => asmText "lui" [regText a, toString imm.toNat]
  | .sw a b imm => asmText "sw" [regText a, regText b, toString (sext7 imm)]
  | .lw a b imm => asmText "lw" [regText a, regText b, toString (sext7 imm)]
  | .beq a b imm => asmText "beq" [regText a, regText b, toString (sext7 imm)]
  | .jalr a b _ => asmText "jalr" [regText a, regText b]
  | .halt _ => "halt"
  | .nop _ => "nop"
  | .lli a imm => asmText "lli" [regText a, toString imm.toNat]

/-! ### The host's view of the table -/

/-- The word of a table row's bits: the low `nbits` bits of `w`, the rest 0. The hardware stores an
instruction as one 16-bit word, so there is nothing to lay out (20_memory.md R58). -/
def tableWord (nbits w : Nat) : Word := BitVec.ofNat 16 (w % 2 ^ nbits)

/-- The instruction the decoder reads from an instruction whose bits are `w`. No instruction is
longer than one word (R70). -/
def decodeTableWord (nbits w : Nat) : Option Instr :=
  if nbits ≤ 16 then (decode (tableWord nbits w)).toOption else none

end Sys2Proof
end

