-- ==== Sys2Proof/Machine/State.lean ====
section
/-! DEFINITION. The machine's state, its stop reasons and its state after reset
(spec/10_state.md R20 to R39, spec/20_memory.md R50, spec/60_exceptions.md R120 to R124). -/

namespace Sys2Proof.Machine

/-- The seven mutable registers. Register 0 is hardwired and has no storage (R20, R38). -/
structure RegFile where
  r1 : Word
  r2 : Word
  r3 : Word
  r4 : Word
  r5 : Word
  r6 : Word
  r7 : Word
deriving DecidableEq, Repr

/-- The sparse store: (address, word) pairs, addresses strictly rising and below 65,536, no word 0
(20_memory.md R50, R53). The unit is the 16-bit word, since no byte exists (R58, assumption log 8).
An unlisted address reads 0 (R52). -/
abbrev Memory := List (Nat × Word)

/-- The run state (10_state.md R36). -/
inductive RunState where
  | running
  | halted
deriving DecidableEq, Repr

/-- What is wrong with a program image that is not loaded (20_memory.md R56, 60_exceptions.md R123,
assumption log 6). -/
inductive ImageProblem where
  /-- The image has `count` words, more than 65,536. -/
  | tooManyWords (count : Nat)
  /-- The word for `address` is outside 0..0xFFFF. -/
  | wordOutOfRange (address : Nat) (word : Int)
deriving DecidableEq, Repr

/-- The fatal conditions, by the spec's three kinds with the information each reports
(60_exceptions.md R120). -/
inductive Fault where
  /-- Raised by a step that finds the pc outside 0..0xFFFF, before its fetch (R121). For a pc above
  0xFFFF this is the source's own rule. For a negative pc it is the spec's decision D2: safe for a
  claim about runs that complete, unsafe for a claim that a run faults (assumption log 2). -/
  | programCounterOverflow (pc : Int)
  /-- Raised by a step whose word the decoder rejects, which no word is (R122). Safe: it can only
  stop a run (assumption log 15). -/
  | unsupportedOpcode (op : BitVec 3)
  /-- Raised by a reset with an image that cannot be loaded, never by a step (R123). Safe: the
  instance does not start (decision D6, assumption log 6). -/
  | malformedProgramImage (problem : ImageProblem)
deriving DecidableEq, Repr

/-- Why nothing is executed, other than by a fatal condition. -/
inductive Refusal where
  /-- Raised by an arm of exec that has no meaning yet. No arm does. Safe. -/
  | notModelled (mnemonic : String)
  /-- Raised by a step from a HALTED state: no step executes there until reset (R36, decision D4).
  Safe: nothing can be proved of a run beyond the halt (assumption log 4). -/
  | halted
  /-- Raised by a run call whose budget is below 1 (R40, decision D5). Safe (assumption log 5). -/
  | budgetNotPositive (budget : Int)
deriving DecidableEq, Repr

/-- The architectural state, exactly the pieces R38 lists. -/
structure State where
  /-- `x[1]`..`x[7]` (R20). -/
  regs : RegFile
  /-- The one memory, code and data (R50). -/
  mem : Memory
  /-- The program counter, an integer that is not reduced (R30). -/
  pc : Int
  /-- RUNNING or HALTED (R36). -/
  run : RunState
  /-- The steps executed since reset (R37). -/
  steps : Nat
  /-- The recorded fatal condition (R124). -/
  fault : Option Fault
deriving DecidableEq, Repr

/-- The machine right after reset (R39, 70_reset_and_hazards.md R140) with the empty image: a
program's image is an argument of the spec's reset, `State.load` (assumption log 16). -/
def State.reset : State :=
  { regs := { r1 := 0, r2 := 0, r3 := 0, r4 := 0, r5 := 0, r6 := 0, r7 := 0 }
    mem := []
    pc := 0
    run := .running
    steps := 0
    fault := none }

end Sys2Proof.Machine
end

