-- ==== Sys2Proof/Machine/Ops.lean ====
section
/-! DEFINITION. The named operations over registers, memory, pc and run state, the fetch, and the
raising of a fatal condition (spec/10_state.md, spec/20_memory.md, spec/60_exceptions.md). -/

namespace Sys2Proof.Machine

/-- `mod16`: an integer reduced into 0..0xFFFF (00_scope.md R9). -/
def mod16 (v : Int) : Word := BitVec.ofInt 16 v

/-! ### Registers (10_state.md R21, R22) -/

/-- `x[i]`: 0 for register 0, otherwise the stored value (R21). -/
def RegFile.read (f : RegFile) : Reg → Word
  | .r0 => 0
  | .r1 => f.r1
  | .r2 => f.r2
  | .r3 => f.r3
  | .r4 => f.r4
  | .r5 => f.r5
  | .r6 => f.r6
  | .r7 => f.r7

/-- `x[i] <- v` for any integer `v`: nothing for register 0, otherwise `mod16(v)` is stored (R22). -/
def RegFile.write (f : RegFile) (i : Reg) (v : Int) : RegFile :=
  match i with
  | .r0 => f
  | .r1 => { f with r1 := mod16 v }
  | .r2 => { f with r2 := mod16 v }
  | .r3 => { f with r3 := mod16 v }
  | .r4 => { f with r4 := mod16 v }
  | .r5 => { f with r5 := mod16 v }
  | .r6 => { f with r6 := mod16 v }
  | .r7 => { f with r7 := mod16 v }

/-- Register read on the whole state. -/
def State.readReg (s : State) (i : Reg) : Word := s.regs.read i

/-- Register write on the whole state. -/
def State.writeReg (s : State) (i : Reg) (v : Int) : State := { s with regs := s.regs.write i v }

/-! ### Memory (20_memory.md R52, R53) -/

/-- The word listed for an address, 0 if there is none. -/
def Memory.lookup : Memory → Nat → Word
  | [], _ => 0
  | (b, w) :: m, a => if a = b then w else Memory.lookup m a

/-- `MemRead(addr)`: the stored value, or 0 if absent (R52). -/
def Memory.read (m : Memory) (addr : Word) : Word := Memory.lookup m addr.toNat

/-- The list without the entries of one address. -/
def Memory.erase : Memory → Nat → Memory
  | [], _ => []
  | (b, w) :: m, a => if a = b then Memory.erase m a else (b, w) :: Memory.erase m a

/-- An entry put in before the first higher address. -/
def Memory.insert : Memory → Nat → Word → Memory
  | [], a, v => [(a, v)]
  | (b, w) :: m, a, v => if a < b then (a, v) :: (b, w) :: m else (b, w) :: Memory.insert m a v

/-- `MemWrite(addr, v)` for any integer `v`: stores `mod16(v)`, and if that is 0 removes the entry
instead (R53). -/
def Memory.write (m : Memory) (addr : Word) (v : Int) : Memory :=
  if mod16 v = 0 then Memory.erase m addr.toNat
  else Memory.insert (Memory.erase m addr.toNat) addr.toNat (mod16 v)

/-- Every entry is at an address from `low` up and below 65,536, addresses strictly rise, and no
listed word is 0, which is what an unlisted address reads. -/
def Memory.wfFrom : Nat → Memory → Bool
  | _, [] => true
  | low, (b, w) :: m =>
    decide (low ≤ b) && decide (b < Config.memoryWords) && decide (w ≠ 0) && Memory.wfFrom (b + 1) m

/-- The canonical form of the store. -/
def Memory.wf (m : Memory) : Bool := Memory.wfFrom 0 m

/-- Memory read on the whole state. -/
def State.readMem (s : State) (addr : Word) : Word := Memory.read s.mem addr

/-- Memory write on the whole state. -/
def State.writeMem (s : State) (addr : Word) (v : Int) : State :=
  { s with mem := Memory.write s.mem addr v }

/-! ### Program counter, run state and step counter (10_state.md R32, R36, R37) -/

/-- `pc <- target`, in exact integers (R32). -/
def State.setPc (s : State) (target : Int) : State := { s with pc := target }

/-- `pc <- PC_old + 1`, the sequential advance (R32). -/
def State.advance (s : State) : State := s.setPc (s.pc + 1)

/-- `halted <- true` (R36). -/
def State.halt (s : State) : State := { s with run := .halted }

/-- One executed step counted (R37, decision D3, assumption log 3). -/
def State.countStep (s : State) : State := { s with steps := s.steps + 1 }

/-- `x[A] <- v` and the sequential advance: what the computational instructions and LW end with
(R90 to R93, R101). -/
def State.writeAndAdvance (s : State) (a : Reg) (v : Int) : State := (s.writeReg a v).advance

/-! ### Fatal conditions (60_exceptions.md R120 to R127) -/

/-- Taking a fatal condition: it is recorded, and nothing else changes: no register, mode or mask,
and control goes nowhere (R124, R127). There is no return from it but reset (R128). -/
def State.raise (s : State) (f : Fault) : State := { s with fault := some f }

/-! ### The fetch (10_state.md R33, 60_exceptions.md R121, R122) -/

/-- Whether the pc lies in 0..0xFFFF (R30, R121). -/
def pcInRange (pc : Int) : Bool := decide (0 ≤ pc) && decide (pc ≤ Config.topAddress)

/-- The address fetched from: the pc, which the check has found in range. -/
def State.fetchAddress (s : State) : Word := mod16 s.pc

/-- The range check, then the word at the pc (R33). -/
def State.fetch (s : State) : Except Fault Word :=
  if pcInRange s.pc then .ok (s.readMem s.fetchAddress)
  else .error (.programCounterOverflow s.pc)

/-- The fetch and the decode; a rejected word raises `UnsupportedOpcode` rather than being skipped
(R122, decision D19, assumption log 15). -/
def State.fetchInstr (s : State) : Except Fault Instr :=
  match s.fetch with
  | .error f => .error f
  | .ok w =>
    match decode w with
    | .ok i => .ok i
    | .error (.unsupportedOpcode op) => .error (.unsupportedOpcode op)

/-- The end of a step: a completed instruction is counted, a raise counts nothing (R33, R37). -/
def retire : Host.Outcome State Fault Refusal → Host.Outcome State Fault Refusal
  | .next s => .next s.countStep
  | .fault f => .fault f
  | .refused r => .refused r

/-! ### Loading and reset (20_memory.md R56, 70_reset_and_hazards.md R140) -/

/-- The store of an image whose first word stands at `addr`; a word 0 allocates no entry. -/
def imageCells : Nat → List Int → Memory
  | _, [] => []
  | addr, v :: vs =>
    if mod16 v = 0 then imageCells (addr + 1) vs else (addr, mod16 v) :: imageCells (addr + 1) vs

/-- The first word of an image that is outside 0..0xFFFF, with its address. -/
def firstBadWord : Nat → List Int → Option ImageProblem
  | _, [] => none
  | addr, v :: vs =>
    if 0 ≤ v ∧ v ≤ 0xFFFF then firstBadWord (addr + 1) vs else some (.wordOutOfRange addr v)

/-- What is wrong with an image, if anything (R56, decision D6): its length is looked at first, then
its words in order (DESIGN CHOICE, assumption log 6). -/
def imageProblem (image : List Int) : Option ImageProblem :=
  if Config.memoryWords < image.length then some (.tooManyWords image.length)
  else firstBadWord 0 image

/-- `Reset(image)` (R140): a bad image is refused and the instance does not start; otherwise every
piece of state is as after reset, with the image in memory. It takes no old state: nothing survives
a reset. -/
def State.load (image : List Int) : Except Fault State :=
  match imageProblem image with
  | some p => .error (.malformedProgramImage p)
  | none => .ok { State.reset with mem := imageCells 0 image }

end Sys2Proof.Machine
end

