-- ==== Sys2Proof/Machine/Operands.lean ====
section
/-! DEFINITION. The operand forms: register value, signed immediate, upper immediate and the one
addressing mode (spec/30_encoding.md R75, spec/41_load_store.md R102). -/

namespace Sys2Proof.Machine

/-- A register operand as the integer the pseudocode computes with. -/
def State.regVal (s : State) (i : Reg) : Int := (s.readReg i).val

/-- The exact sum of two register operands, 0..0x1FFFE (R90). -/
def sumRegs (s : State) (b c : Reg) : Int := s.regVal b + s.regVal c

/-- The exact sum of a register operand and the signed immediate (R91, R102). -/
def sumImm (s : State) (b : Reg) (imm7 : BitVec 7) : Int := s.regVal b + sext7 imm7

/-- `0xFFFF - (x[B] & x[C])` (R92). -/
def nandRegs (s : State) (b c : Reg) : Int := 0xFFFF - (s.readReg b &&& s.readReg c).val

/-- `imm10 * 64`: the immediate in bits 15..6 (R93; 90_conflicts.md C1, assumption log 19). -/
def upperImm (imm10 : BitVec 10) : Int := (imm10.toNat : Int) * 64

/-- Base plus signed offset, `mod16(x[B] + imm7)`, wrapping at both ends (R102). -/
def effectiveAddress (s : State) (b : Reg) (imm7 : BitVec 7) : Word := mod16 (sumImm s b imm7)

/-- The `lli` alias's 6-bit immediate in the 7-bit field of the ADDI it names (R80). -/
def lliImm7 (imm6 : BitVec 6) : BitVec 7 := BitVec.ofNat 7 imm6.toNat

end Sys2Proof.Machine
end

