-- ==== Sys2Proof/Machine/Computational.lean ====
section
/-! DEFINITION. ADD, ADDI, NAND, LUI and the display aliases nop and lli
(spec/40_computational.md R90 to R94, spec/30_encoding.md R80). Every source is read from the state
before the destination is written. -/

namespace Sys2Proof.Machine

/-- ADD (R90). -/
def execAdd (a b c : Reg) (s : State) : Host.Outcome State Fault Refusal :=
  .next (s.writeAndAdvance a (sumRegs s b c))

/-- ADDI (R91). -/
def execAddi (a b : Reg) (imm7 : BitVec 7) (s : State) : Host.Outcome State Fault Refusal :=
  .next (s.writeAndAdvance a (sumImm s b imm7))

/-- NAND (R92). -/
def execNand (a b c : Reg) (s : State) : Host.Outcome State Fault Refusal :=
  .next (s.writeAndAdvance a (nandRegs s b c))

/-- LUI (R93). -/
def execLui (a : Reg) (imm10 : BitVec 10) (s : State) : Host.Outcome State Fault Refusal :=
  .next (s.writeAndAdvance a (upperImm imm10))

/-- The alias nop executes as ADD with all register fields 0 (R80, R90). -/
def execNop (s : State) : Host.Outcome State Fault Refusal :=
  .next (s.writeAndAdvance .r0 (sumRegs s .r0 .r0))

/-- The alias lli executes as ADDI with both register fields A (R80, R91). -/
def execLli (a : Reg) (imm6 : BitVec 6) (s : State) : Host.Outcome State Fault Refusal :=
  .next (s.writeAndAdvance a (sumImm s a (lliImm7 imm6)))

end Sys2Proof.Machine
end

