-- ==== Sys2Proof/Machine/Flags.lean ====
section
/-! DEFINITION. The machine has no flags (spec/10_state.md R38): no instruction writes or reads one.
The one condition an instruction tests, BEQ's, is computed from two registers here. -/

namespace Sys2Proof.Machine

/-- BEQ's condition: equality of the two 16-bit values (spec/42_control.md R110). -/
def branchTaken (s : State) (a b : Reg) : Bool := s.readReg a == s.readReg b

/-- Where a BEQ goes, in exact integers: `PC_old + imm7 + 1` if taken, else `PC_old + 1` (R110). -/
def branchTarget (s : State) (a b : Reg) (imm7 : BitVec 7) : Int :=
  if branchTaken s a b then s.pc + sext7 imm7 + 1 else s.pc + 1

end Sys2Proof.Machine
end

