-- ==== Sys2Proof/Machine/Control.lean ====
section
/-! DEFINITION. BEQ, JALR and its halt form (spec/42_control.md R110 to R114). -/

namespace Sys2Proof.Machine

/-- BEQ (R110). -/
def execBeq (a b : Reg) (imm7 : BitVec 7) (s : State) : Host.Outcome State Fault Refusal :=
  .next (s.setPc (branchTarget s a b imm7))

/-- The link and the jump: `x[A] <- PC_old + 1`, then `pc <- x[B]` read after that write (R111,
R112, 70_reset_and_hazards.md R144). -/
def linkAndJump (s : State) (a b : Reg) : State :=
  let linked := s.writeReg a (s.pc + 1)
  linked.setPc (linked.regVal b)

/-- JALR. Its handler tests the halt form's operand predicate first (R113, assumption log 20). -/
def execJalr (a b : Reg) (s : State) : Host.Outcome State Fault Refusal :=
  if a = .r0 ∧ b = .r0 then .next s.halt else .next (linkAndJump s a b)

/-- The halt form: HALTED, and no register, memory or pc change (R113). -/
def execHalt (s : State) : Host.Outcome State Fault Refusal := .next s.halt

end Sys2Proof.Machine
end

