-- ==== Sys2Proof/Machine/LoadStore.lean ====
section
/-! DEFINITION. SW and LW (spec/41_load_store.md R100 to R102). -/

namespace Sys2Proof.Machine

/-- SW: `x[A]` to the effective address (R100). -/
def execSw (a b : Reg) (imm7 : BitVec 7) (s : State) : Host.Outcome State Fault Refusal :=
  .next (s.writeMem (effectiveAddress s b imm7) (s.regVal a)).advance

/-- LW: the word at the effective address, computed from the old `x[B]`, to `x[A]` (R101). -/
def execLw (a b : Reg) (imm7 : BitVec 7) (s : State) : Host.Outcome State Fault Refusal :=
  .next (s.writeAndAdvance a (s.readMem (effectiveAddress s b imm7)).val)

end Sys2Proof.Machine
end

