-- ==== Sys2Proof/Machine/Dispatch.lean ====
section
/-! DEFINITION. One arm per constructor of Instr; the bits a rule ignores are not handed on
(spec/30_encoding.md R79). -/

namespace Sys2Proof.Machine

def exec (i : Instr) (s : State) : Host.Outcome State Fault Refusal :=
  match i with
  | .add a b c _ => Sys2Proof.Machine.execAdd a b c s
  | .addi a b imm7 => Sys2Proof.Machine.execAddi a b imm7 s
  | .nand a b c _ => Sys2Proof.Machine.execNand a b c s
  | .lui a imm10 => Sys2Proof.Machine.execLui a imm10 s
  | .sw a b imm7 => Sys2Proof.Machine.execSw a b imm7 s
  | .lw a b imm7 => Sys2Proof.Machine.execLw a b imm7 s
  | .beq a b imm7 => Sys2Proof.Machine.execBeq a b imm7 s
  | .jalr a b _ => Sys2Proof.Machine.execJalr a b s
  | .halt _ => Sys2Proof.Machine.execHalt s
  | .nop _ => Sys2Proof.Machine.execNop s
  | .lli a imm6 => Sys2Proof.Machine.execLli a imm6 s

end Sys2Proof.Machine
end

