-- ==== Sys2Proof/Machine/Step.lean ====
section
/-! DEFINITION. One step of the execution engine (spec/10_state.md R33, R40) and the host's way to
place one instruction before it. -/

namespace Sys2Proof.Machine

/-- One step. The checks come in the order of 60_exceptions.md R126: a recorded fault, then HALTED,
then the pc range and the fetch, then the instruction, which is counted when it completes. From a
HALTED state no step executes (R36, assumption log 4). -/
def step (s : State) : Host.Outcome State Fault Refusal :=
  match s.fault with
  | some f => .fault f
  | none =>
    match s.run with
    | .halted => .refused .halted
    | .running =>
      match s.fetchInstr with
      | .error f => .fault f
      | .ok i => retire (exec i s)

/-- The state with an instruction word stored where the next step fetches: at the pc. Nothing else
changes. From reset, or from any state that is RUNNING without a fault and with its pc in range, the
next step runs that instruction (assumption log 16). -/
def State.withFetchWord (s : State) (nbits w : Nat) : State :=
  s.writeMem s.fetchAddress (tableWord nbits w).val

end Sys2Proof.Machine
end

