-- ==== Sys2Proof/Machine/Run.lean ====
section
/-! DEFINITION. The run contract and the observable outputs (spec/10_state.md R27, R40 to R45). -/

namespace Sys2Proof.Machine

/-- The outcome of a run call (R27). -/
inductive RunOutcome where
  | halted
  | budgetExhausted
  | fault (f : Fault)
deriving DecidableEq, Repr

/-- The loop of a run call with `budget` steps left: HALTED ends it, then the budget, then a step is
made; a raise is recorded and ends it at once (R40, R43, R124). A refusal of a step other than for
HALTED, which no instruction gives, would be handed on. -/
def runLoop : Nat → State → Except Refusal (RunOutcome × State)
  | 0, s => .ok (if s.run = .halted then .halted else .budgetExhausted, s)
  | n + 1, s =>
    if s.run = .halted then .ok (.halted, s)
    else
      match step s with
      | .next t => runLoop n t
      | .fault f => .ok (.fault f, s.raise f)
      | .refused r => .error r

/-- `Run(budget)` (R40): a budget below 1 is refused (decision D5, assumption log 5), and a recorded
fault is returned without a step (decision D10, assumption log 10). -/
def run (budget : Int) (s : State) : Except Refusal (RunOutcome × State) :=
  if budget < 1 then .error (.budgetNotPositive budget)
  else
    match s.fault with
    | some f => .ok (.fault f, s)
    | none => runLoop budget.toNat s

/-- The comparison surface: registers 1..7, memory, pc, and whether HALTED was reached (R45). The
memory is in canonical form, so equal lists are equal address-to-word functions (R54, log 9). -/
structure Observation where
  regs : RegFile
  mem : Memory
  pc : Int
  halted : Bool
deriving DecidableEq, Repr

/-- What the host may read after a call (R45). The step counter is not part of it (R37). -/
def State.observe (s : State) : Observation :=
  { regs := s.regs, mem := s.mem, pc := s.pc, halted := decide (s.run = .halted) }

end Sys2Proof.Machine
end

