-- ==== Sys2Proof/Safety.lean ====
section
/-! DEFINITION. The terms the claims use: the states a step may start from, the invariant, what
stays unchanged, and the stores of a run. -/

namespace Sys2Proof.Machine

/-- A state from which a step executes an instruction: RUNNING, no fault recorded, the pc in range
(spec/10_state.md R33, R40). -/
structure State.Ready (s : State) : Prop where
  noFault : s.fault = none
  running : s.run = .running
  pcLow : 0 ≤ s.pc
  pcHigh : s.pc ≤ 0xFFFF

/-- What every state of an instance satisfies, from reset on. The memory has its canonical form
(20_memory.md R53); the pc lies where a step can leave it (10_state.md R30); a HALTED instance stands
at a halt word (42_control.md R113) and has no fault; a recorded fault is the overflow of this very
pc (60_exceptions.md R121, R124). -/
structure State.Inv (s : State) : Prop where
  memCanonical : Memory.wf s.mem = true
  pcLow : -63 ≤ s.pc
  pcHigh : s.pc ≤ 0x1003F
  haltedNoFault : s.run = .halted → s.fault = none
  haltedInRange : s.run = .halted → 0 ≤ s.pc ∧ s.pc ≤ 0xFFFF
  haltedAtHaltWord : s.run = .halted → ∃ x, decode (s.readMem s.fetchAddress) = .ok (.halt x)
  faultIsOverflow : ∀ f, s.fault = some f →
    f = .programCounterOverflow s.pc ∧ (s.pc < 0 ∨ 0xFFFF < s.pc)

/-- Every register but `a` reads as before. -/
def State.RegsKeptBut (s t : State) (a : Reg) : Prop := ∀ r, r ≠ a → t.readReg r = s.readReg r

/-- Every register reads as before. -/
def State.RegsKept (s t : State) : Prop := ∀ r, t.readReg r = s.readReg r

/-- Every memory word reads as before. -/
def State.MemKept (s t : State) : Prop := ∀ addr, t.readMem addr = s.readMem addr

/-- The run state, the step counter and the fault record are as before. -/
def State.ControlKept (s t : State) : Prop :=
  t.run = s.run ∧ t.steps = s.steps ∧ t.fault = s.fault

/-- The address and the word the next step stores, if it is an SW that executes. -/
def State.nextStore (s : State) : Option (Word × Word) :=
  match s.fetchInstr with
  | .ok (.sw a b imm7) => some (effectiveAddress s b imm7, s.readReg a)
  | _ => none

/-- The word that the last of the next `n` steps to store to `addr` stores there, if one does. -/
def State.lastStore (addr : Word) : Nat → State → Option Word
  | 0, _ => none
  | n + 1, s =>
    match step s with
    | .next t =>
      match State.lastStore addr n t, s.nextStore with
      | some v, _ => some v
      | none, some (a, v) => if a = addr then some v else none
      | none, none => none
    | _ => none

/-- The register an instruction writes, if any (10_state.md R23). -/
def destination : Instr → Option Reg
  | .add a _ _ _ => some a
  | .addi a _ _ => some a
  | .nand a _ _ _ => some a
  | .lui a _ => some a
  | .sw _ _ _ => none
  | .lw a _ _ => some a
  | .beq _ _ _ => none
  | .jalr a _ _ => some a
  | .halt _ => none
  | .nop _ => some .r0
  | .lli a _ => some a

/-- The registers an instruction reads (10_state.md R23). -/
def sources : Instr → List Reg
  | .add _ b c _ => [b, c]
  | .addi _ b _ => [b]
  | .nand _ b c _ => [b, c]
  | .lui _ _ => []
  | .sw a b _ => [a, b]
  | .lw _ b _ => [b]
  | .beq a b _ => [a, b]
  | .jalr _ b _ => [b]
  | .halt _ => []
  | .nop _ => [.r0]
  | .lli a _ => [a]

end Sys2Proof.Machine
end

