-- ==== Sys2Proof/Certificates/Slice0/Obligations.lean ====
section
/-! DEFINITION. The statements for the provers. Each docstring names the rules of spec/ it rests on;
where it rests on a decision of the spec or on the model's own choice it names that decision and the
assumption log's entry. -/

open Sys2Proof Sys2Proof.Machine

/-! ### Encoding -/

/-- R2, R79: every 16-bit value decodes, to an instruction that is well formed and is no display
alias. -/
def Obligations.EveryWordDecodes : Prop :=
  ∀ w : Word, ∃ i, decode w = .ok i ∧ i.wellFormed = true ∧ i.isAlias = false

/-- R72 to R78: the decoder reads back every well-formed instruction from its word, with every
operand at every value. The aliases nop and lli, which are no decoder rows, are the subject of
AliasWordsDecodeToCore. The opcode numbers are the spec's decision D1 (log 1). -/
def Obligations.DecodeInvertsEncode : Prop :=
  ∀ i : Instr, i.wellFormed = true → i.isAlias = false → decode (encode i) = .ok i

/-- R70, R75: the instruction decoded from a word encodes to that word, so the fields are taken from
the word's bits and no bit is lost. That the instruction also keeps the bits its shape ignores is the
model's choice (log 7). -/
def Obligations.EncodeInvertsDecode : Prop :=
  ∀ (w : Word) (i : Instr), decode w = .ok i → encode i = w

/-- R80: the words of the aliases nop and lli decode to the ADD and the ADDI they are another name
of (that the decoder has no row for them is the opcode table's note; log 13). -/
def Obligations.AliasWordsDecodeToCore : Prop :=
  (∀ x : BitVec 4, decode (encode (.nop x)) = .ok (.add .r0 .r0 .r0 x)) ∧
  (∀ (a : Reg) (imm6 : BitVec 6), ∃ imm7 : BitVec 7,
    decode (encode (.lli a imm6)) = .ok (.addi a a imm7) ∧ sext7 imm7 = (imm6.toNat : Int))

/-- R72 to R78: one word of each row of the opcode table, written out bit by bit, decodes to its
instruction. The opcode numbers are the spec's decision D1 (log 1). -/
def Obligations.WrittenOutWordsDecode : Prop :=
  decode 0b0000010100000011 = .ok (.add .r1 .r2 .r3 0) ∧
  decode 0b0010010101111111 = .ok (.addi .r1 .r2 127) ∧
  decode 0b0100010100000011 = .ok (.nand .r1 .r2 .r3 0) ∧
  decode 0b0110011111111111 = .ok (.lui .r1 1023) ∧
  decode 0b1000010100000101 = .ok (.sw .r1 .r2 5) ∧
  decode 0b1011100100000101 = .ok (.lw .r6 .r2 5) ∧
  decode 0b1100010100000101 = .ok (.beq .r1 .r2 5) ∧
  decode 0b1110110010000000 = .ok (.jalr .r3 .r1 0) ∧
  decode 0b1110000001111111 = .ok (.halt 127)

/-- R77: a word selects the row whose mask and match it meets, the halt-form row before the JALR
row. The opcode numbers are the spec's decision D1 (log 1). -/
def Obligations.OpcodeTableSelectsInstruction : Prop :=
  ∀ w : Word,
    (w &&& 0xE000 = 0x0000 ↔ ∃ a b c x, decode w = .ok (.add a b c x)) ∧
    (w &&& 0xE000 = 0x2000 ↔ ∃ a b imm, decode w = .ok (.addi a b imm)) ∧
    (w &&& 0xE000 = 0x4000 ↔ ∃ a b c x, decode w = .ok (.nand a b c x)) ∧
    (w &&& 0xE000 = 0x6000 ↔ ∃ a imm, decode w = .ok (.lui a imm)) ∧
    (w &&& 0xE000 = 0x8000 ↔ ∃ a b imm, decode w = .ok (.sw a b imm)) ∧
    (w &&& 0xE000 = 0xA000 ↔ ∃ a b imm, decode w = .ok (.lw a b imm)) ∧
    (w &&& 0xE000 = 0xC000 ↔ ∃ a b imm, decode w = .ok (.beq a b imm)) ∧
    (w &&& 0xE000 = 0xE000 ∧ w &&& 0xFF80 ≠ 0xE000 ↔ ∃ a b x, decode w = .ok (.jalr a b x)) ∧
    (w &&& 0xFF80 = 0xE000 ↔ ∃ x, decode w = .ok (.halt x))

/-- R71 to R75: where the decoder's fields lie in a word, the fields of all three shapes, and how the
7-bit immediate is read. Bits 6..3 belong to no field of the RRR shape: that they are ignored is
decision D7, that the decoder keeps them as `unused` is the model's choice (log 7). -/
def Obligations.FieldsLieAtTheirPositions : Prop :=
  ∀ w : Word,
    (decodeFields w).op.toNat = (w.toNat >>> 13) &&& 0x7 ∧
    (decodeFields w).a.index = (w.toNat >>> 10) &&& 0x7 ∧
    (decodeFields w).b.index = (w.toNat >>> 7) &&& 0x7 ∧
    (decodeFields w).c.index = w.toNat &&& 0x7 ∧
    (decodeFields w).unused.toNat = (w.toNat >>> 3) &&& 0xF ∧
    (decodeFields w).imm10.toNat = w.toNat &&& 0x3FF ∧
    (decodeFields w).imm10.toNat ≤ 1023 ∧
    (sext7 (decodeFields w).imm7 =
      if 64 ≤ w.toNat &&& 0x7F then ((w.toNat &&& 0x7F : Nat) : Int) - 128
      else ((w.toNat &&& 0x7F : Nat) : Int)) ∧
    -64 ≤ sext7 (decodeFields w).imm7 ∧ sext7 (decodeFields w).imm7 ≤ 63

/-- R72 to R78: each operand of the decoded instruction is read from its own bits of the word, and the
decoder answers no display alias. The opcode numbers are decision D1 (log 1), that bits 6..3 of ADD
and NAND and bits 6..0 of JALR and its halt form are kept as an operand without a meaning is the
model's choice over decision D7 (log 7). -/
def Obligations.OperandsAreReadFromTheirBits : Prop :=
  ∀ (w : Word) (i : Instr), decode w = .ok i →
    let A := (w.toNat >>> 10) &&& 0x7
    let B := (w.toNat >>> 7) &&& 0x7
    let C := w.toNat &&& 0x7
    match i with
    | .add a b c x | .nand a b c x =>
      a.index = A ∧ b.index = B ∧ c.index = C ∧ x.toNat = (w.toNat >>> 3) &&& 0xF
    | .addi a b imm | .sw a b imm | .lw a b imm | .beq a b imm | .jalr a b imm =>
      a.index = A ∧ b.index = B ∧ imm.toNat = w.toNat &&& 0x7F
    | .lui a imm => a.index = A ∧ imm.toNat = w.toNat &&& 0x3FF
    | .halt x => A = 0 ∧ B = 0 ∧ x.toNat = w.toNat &&& 0x7F
    | .nop _ | .lli _ _ => False

/-- R80: when a word is displayed under each pseudo-mnemonic, and that every other word is displayed
under its opcode's mnemonic. That bits 6..3 do not matter to `nop` is decision D18 (log 14), the
opcode numbers decision D1 (log 1). -/
def Obligations.DisplayLabelsOfWords : Prop :=
  ∀ w : Word,
    let op := w.toNat / 8192
    let A := w.toNat / 1024 % 8
    let B := w.toNat / 128 % 8
    let C := w.toNat % 8
    let imm := w.toNat % 128
    (display w = .ok .nop ↔ op = 0 ∧ A = 0 ∧ B = 0 ∧ C = 0) ∧
    (display w = .ok .lli ↔ op = 1 ∧ A = B ∧ 0 < imm ∧ imm < 64) ∧
    (display w = .ok .halt ↔ op = 7 ∧ A = 0 ∧ B = 0) ∧
    (∀ o, display w = .ok (.plain o) ↔
      op = opcodeNumber o ∧ display w ≠ .ok .nop ∧ display w ≠ .ok .lli ∧ display w ≠ .ok .halt)

/-! ### Registers, memory, reset -/

/-- R21: register 0 reads 0, every other register its stored value. -/
def Obligations.RegisterReadGivesStoredOrZero : Prop :=
  ∀ s : State,
    s.readReg .r0 = 0 ∧ s.readReg .r1 = s.regs.r1 ∧ s.readReg .r2 = s.regs.r2 ∧
    s.readReg .r3 = s.regs.r3 ∧ s.readReg .r4 = s.regs.r4 ∧ s.readReg .r5 = s.regs.r5 ∧
    s.readReg .r6 = s.regs.r6 ∧ s.readReg .r7 = s.regs.r7

/-- R22: writing any integer to register 0 changes nothing; to another register it stores the
integer's low 16 bits there, and changes nothing else. -/
def Obligations.RegisterWriteStoresLow16Bits : Prop :=
  ∀ (s : State) (v : Int),
    s.writeReg .r0 v = s ∧
    ∀ i : Reg, i ≠ .r0 →
      ((s.writeReg i v).readReg i).val = v % 65536 ∧
      s.RegsKeptBut (s.writeReg i v) i ∧ (s.writeReg i v).mem = s.mem ∧
      (s.writeReg i v).pc = s.pc ∧ s.ControlKept (s.writeReg i v)

/-- R52: a read gives the stored value at the address, or 0 if there is none. The canonical form is
the model's (log 9). -/
def Obligations.MemoryReadGivesStoredOrZero : Prop :=
  ∀ (m : Memory) (addr : Word), Memory.wf m = true →
    (∀ w, (addr.toNat, w) ∈ m → Memory.read m addr = w) ∧
    ((∀ w, (addr.toNat, w) ∉ m) → Memory.read m addr = 0)

/-- R51, R53: a write stores the integer's low 16 bits, removes the entry instead if they are 0,
changes no other word, and is made by SW only. -/
def Obligations.MemoryWriteStoresOrErases : Prop :=
  (∀ (m : Memory) (addr : Word) (v : Int),
    (Memory.read (Memory.write m addr v) addr).val = v % 65536 ∧
    (∀ other, other ≠ addr → Memory.read (Memory.write m addr v) other = Memory.read m other) ∧
    (v % 65536 = 0 → ∀ w, (addr.toNat, w) ∉ Memory.write m addr v) ∧
    (v % 65536 ≠ 0 → ∀ w, (addr.toNat, w) ∈ Memory.write m addr v ↔ w.val = v % 65536)) ∧
  (∀ (i : Instr) (s t : State), exec i s = .next t → t.mem ≠ s.mem → ∃ a b imm, i = .sw a b imm)

/-- R54, R45: stores that read the same at every address are the same store, in the canonical form
the model keeps (log 9): which addresses are listed tells nothing. -/
def Obligations.CanonicalMemoriesEqualIfTheyReadEqual : Prop :=
  ∀ m m' : Memory, Memory.wf m = true → Memory.wf m' = true →
    (∀ addr, Memory.read m addr = Memory.read m' addr) → m = m'

/-- R56, R140: a legal image is loaded at addresses 0..N-1, every other word reads 0, and all other
state is at its reset value. The bounds are decision D6 (log 6), the counter and the fault record
decisions D3 and D10 (log 3, log 10). -/
def Obligations.LegalImageIsLoaded : Prop :=
  ∀ image : List Int, image.length ≤ 65536 → (∀ v ∈ image, 0 ≤ v ∧ v ≤ 0xFFFF) →
    ∃ s, State.load image = .ok s ∧
      (∀ addr : Word, (s.readMem addr).val = (image[addr.toNat]?).getD 0) ∧
      (∀ r, s.readReg r = 0) ∧ s.pc = 0 ∧ s.run = .running ∧ s.steps = 0 ∧ s.fault = none

/-- R56, R123: an image that is too long or has a word outside 0..0xFFFF is refused, and the report
names a fault of that image (decision D6; that the length is looked at first is the model's choice,
log 6). -/
def Obligations.IllegalImageIsRefused : Prop :=
  ∀ image : List Int,
    (65536 < image.length →
      State.load image = .error (.malformedProgramImage (.tooManyWords image.length))) ∧
    (image.length ≤ 65536 → ¬ (∀ v ∈ image, 0 ≤ v ∧ v ≤ 0xFFFF) →
      ∃ (addr : Nat) (v : Int), image[addr]? = some v ∧ (v < 0 ∨ 0xFFFF < v) ∧
        State.load image = .error (.malformedProgramImage (.wordOutOfRange addr v)))

/-- R39, R25: what reset leaves, with the empty image. The counter and the fault record are decisions
D3 and D10 (log 3, log 10); that `State.reset` stands for the empty image is the model's choice
(log 16). -/
def Obligations.ResetStateIsTheEmptyLoad : Prop :=
  State.load [] = .ok State.reset ∧ (∀ r, State.reset.readReg r = 0) ∧
  (∀ addr, State.reset.readMem addr = 0) ∧ State.reset.pc = 0 ∧ State.reset.run = .running ∧
  State.reset.steps = 0 ∧ State.reset.fault = none

/-! ### What each instruction does, and what it leaves -/

/-- R90: ADD completes, with the sum modulo 2^16 in its destination (nothing for register 0), every
other register and all memory as before, and the pc one further. -/
def Obligations.AddWritesTheSum : Prop :=
  ∀ (a b c : Reg) (x : BitVec 4) (s : State), ∃ t, exec (.add a b c x) s = .next t ∧
    (a ≠ .r0 → (t.readReg a).val = ((s.readReg b).val + (s.readReg c).val) % 65536) ∧
    t.readReg .r0 = 0 ∧ s.RegsKeptBut t a ∧ s.MemKept t ∧ s.ControlKept t ∧ t.pc = s.pc + 1

/-- R91: ADDI completes, with the sum of the register and the signed immediate modulo 2^16. -/
def Obligations.AddiWritesTheSum : Prop :=
  ∀ (a b : Reg) (imm7 : BitVec 7) (s : State), ∃ t, exec (.addi a b imm7) s = .next t ∧
    (a ≠ .r0 → (t.readReg a).val = ((s.readReg b).val + imm7.toInt) % 65536) ∧
    t.readReg .r0 = 0 ∧ s.RegsKeptBut t a ∧ s.MemKept t ∧ s.ControlKept t ∧ t.pc = s.pc + 1

/-- R92: NAND completes, with the bitwise complement of the bitwise and. -/
def Obligations.NandWritesTheComplementOfTheAnd : Prop :=
  ∀ (a b c : Reg) (x : BitVec 4) (s : State), ∃ t, exec (.nand a b c x) s = .next t ∧
    (a ≠ .r0 → t.readReg a = ~~~(s.readReg b &&& s.readReg c)) ∧
    t.readReg .r0 = 0 ∧ s.RegsKeptBut t a ∧ s.MemKept t ∧ s.ControlKept t ∧ t.pc = s.pc + 1

/-- R93: LUI completes, with the immediate in bits 15..6 and bits 5..0 clear. -/
def Obligations.LuiWritesTheUpperBits : Prop :=
  ∀ (a : Reg) (imm10 : BitVec 10) (s : State), ∃ t, exec (.lui a imm10) s = .next t ∧
    (a ≠ .r0 → (t.readReg a).extractLsb' 6 10 = imm10 ∧ (t.readReg a).extractLsb' 0 6 = 0) ∧
    t.readReg .r0 = 0 ∧ s.RegsKeptBut t a ∧ s.MemKept t ∧ s.ControlKept t ∧ t.pc = s.pc + 1

/-- R100: SW completes, with the register's word at the effective address, every other word and every
register as before. -/
def Obligations.SwStoresTheWord : Prop :=
  ∀ (a b : Reg) (imm7 : BitVec 7) (s : State), ∃ t, exec (.sw a b imm7) s = .next t ∧
    t.readMem (effectiveAddress s b imm7) = s.readReg a ∧
    (∀ addr, addr ≠ effectiveAddress s b imm7 → t.readMem addr = s.readMem addr) ∧
    s.RegsKept t ∧ s.ControlKept t ∧ t.pc = s.pc + 1

/-- R101: LW completes, with the word at the effective address in its destination. -/
def Obligations.LwLoadsTheWord : Prop :=
  ∀ (a b : Reg) (imm7 : BitVec 7) (s : State), ∃ t, exec (.lw a b imm7) s = .next t ∧
    (a ≠ .r0 → t.readReg a = s.readMem (effectiveAddress s b imm7)) ∧
    t.readReg .r0 = 0 ∧ s.RegsKeptBut t a ∧ s.MemKept t ∧ s.ControlKept t ∧ t.pc = s.pc + 1

/-- R110: BEQ completes and changes the pc only: by the exact offset and 1 if the two registers hold
the same value, else by 1. -/
def Obligations.BeqBranchesOnEquality : Prop :=
  ∀ (a b : Reg) (imm7 : BitVec 7) (s : State), ∃ t, exec (.beq a b imm7) s = .next t ∧
    (s.readReg a = s.readReg b → t.pc = s.pc + imm7.toInt + 1) ∧
    (s.readReg a ≠ s.readReg b → t.pc = s.pc + 1) ∧
    s.RegsKept t ∧ s.MemKept t ∧ s.ControlKept t

/-- R111: JALR, other than the halt form, completes: the link is written modulo 2^16 (not to register
0), and the pc is what the target register holds after that write. -/
def Obligations.JalrLinksAndJumps : Prop :=
  ∀ (a b : Reg) (x : BitVec 7) (s : State), ¬ (a = .r0 ∧ b = .r0) →
    ∃ t, exec (.jalr a b x) s = .next t ∧
      (a ≠ .r0 → (t.readReg a).val = (s.pc + 1) % 65536) ∧ t.readReg .r0 = 0 ∧
      t.pc = (t.readReg b).val ∧ (b ≠ a → t.pc = (s.readReg b).val) ∧
      s.RegsKeptBut t a ∧ s.MemKept t ∧ s.ControlKept t

/-- R112: with one register as link and target, the jump goes to the link just written. -/
def Obligations.JalrSameRegisterFallsThrough : Prop :=
  ∀ (r : Reg) (x : BitVec 7) (s : State), r ≠ .r0 →
    ∃ t, exec (.jalr r r x) s = .next t ∧
      (t.readReg r).val = (s.pc + 1) % 65536 ∧ t.pc = (s.pc + 1) % 65536 ∧
      (s.pc = 0xFFFF → t.readReg r = 0 ∧ t.pc = 0) ∧
      s.RegsKeptBut t r ∧ s.MemKept t ∧ s.ControlKept t

/-- R113: the halt form sets HALTED and changes nothing else, as the halt-form row's constructor and
as the JALR operand pattern alike (log 20). -/
def Obligations.HaltFormOnlyHalts : Prop :=
  ∀ (x : BitVec 7) (s : State), ∃ t, exec (.halt x) s = .next t ∧
    exec (.jalr .r0 .r0 x) s = .next t ∧
    t.run = .halted ∧ s.RegsKept t ∧ s.MemKept t ∧ t.pc = s.pc ∧ t.steps = s.steps ∧
    t.fault = s.fault

/-- R80, R90: the alias nop executes as the ADD it labels: it changes no register and no memory and
moves the pc one further. -/
def Obligations.NopExecutesAsItsAdd : Prop :=
  ∀ (x : BitVec 4) (s : State), ∃ t, exec (.nop x) s = .next t ∧
    exec (.add .r0 .r0 .r0 x) s = .next t ∧
    s.RegsKept t ∧ s.MemKept t ∧ s.ControlKept t ∧ t.pc = s.pc + 1

/-- R80, R91: the alias lli executes as the ADDI its word decodes to: it adds its immediate. -/
def Obligations.LliExecutesAsItsAddi : Prop :=
  ∀ (a : Reg) (imm6 : BitVec 6) (s : State), ∃ t, exec (.lli a imm6) s = .next t ∧
    (∀ i, decode (encode (.lli a imm6)) = .ok i → exec i s = .next t) ∧
    (a ≠ .r0 → (t.readReg a).val = ((s.readReg a).val + imm6.toNat) % 65536) ∧
    t.readReg .r0 = 0 ∧ s.RegsKeptBut t a ∧ s.MemKept t ∧ s.ControlKept t ∧ t.pc = s.pc + 1

/-! ### Rules over all instructions -/

/-- R32, R33: the next pc of every instruction, in exact integers without wrap-around, and the next
step's check, which catches a pc out of range (for a negative pc, decision D2; log 2). -/
def Obligations.NextPcIsExact : Prop :=
  (∀ (i : Instr) (s t : State), exec i s = .next t →
    match i with
    | .beq a b imm7 =>
      t.pc = if s.readReg a = s.readReg b then s.pc + imm7.toInt + 1 else s.pc + 1
    | .jalr a b _ =>
      if a = .r0 ∧ b = .r0 then t.pc = s.pc
      else t.pc = if b = a then (s.pc + 1) % 65536 else (s.readReg b).val
    | .halt _ => t.pc = s.pc
    | _ => t.pc = s.pc + 1) ∧
  (∀ s : State, s.fault = none → s.run = .running → (s.pc < 0 ∨ 0xFFFF < s.pc) →
    step s = .fault (.programCounterOverflow s.pc))

/-- R144: the order inside an instruction. ADD, ADDI, NAND and LW compute from the registers as they
were before the write, also where the destination is a source; JALR reads its target after the
write; SW and BEQ write no register; LUI's result depends on no register. -/
def Obligations.SourcesAreReadBeforeTheWriteButForJalr : Prop :=
  ∀ s : State,
    (∀ a b c x t, a ≠ .r0 → exec (.add a b c x) s = .next t →
      (t.readReg a).val = ((s.readReg b).val + (s.readReg c).val) % 65536) ∧
    (∀ a b imm7 t, a ≠ .r0 → exec (.addi a b imm7) s = .next t →
      (t.readReg a).val = ((s.readReg b).val + imm7.toInt) % 65536) ∧
    (∀ a b c x t, a ≠ .r0 → exec (.nand a b c x) s = .next t →
      t.readReg a = ~~~(s.readReg b &&& s.readReg c)) ∧
    (∀ a b imm7 t, a ≠ .r0 → exec (.lw a b imm7) s = .next t →
      t.readReg a = s.readMem (BitVec.ofInt 16 ((s.readReg b).val + imm7.toInt))) ∧
    (∀ a b x t, ¬ (a = .r0 ∧ b = .r0) → exec (.jalr a b x) s = .next t →
      t.pc = (t.readReg b).val) ∧
    (∀ a b imm7 t, exec (.sw a b imm7) s = .next t → s.RegsKept t) ∧
    (∀ a b imm7 t, exec (.beq a b imm7) s = .next t → s.RegsKept t) ∧
    (∀ a imm10 s' t t', exec (.lui a imm10) s = .next t → exec (.lui a imm10) s' = .next t' →
      t.readReg a = t'.readReg a)

/-- R102: the one addressing mode of LW and SW. The address is the base plus the signed offset modulo
2^16; the base register is not changed by it; a whole word is moved; no other instruction stores,
and no other instruction's result depends on a word of data. -/
def Obligations.LoadsAndStoresUseBasePlusOffset : Prop :=
  ∀ s : State,
    (∀ a b imm7, ∃ t, exec (.sw a b imm7) s = .next t ∧
      (∀ addr : Word, addr.val = ((s.readReg b).val + imm7.toInt) % 65536 →
        t.readMem addr = s.readReg a) ∧
      t.readReg b = s.readReg b) ∧
    (∀ a b imm7, ∃ t, exec (.lw a b imm7) s = .next t ∧
      (∀ addr : Word, addr.val = ((s.readReg b).val + imm7.toInt) % 65536 →
        a ≠ .r0 → t.readReg a = s.readMem addr) ∧
      (b ≠ a → t.readReg b = s.readReg b)) ∧
    (∀ i t, exec i s = .next t → (∀ a b imm7, i ≠ .sw a b imm7) → s.MemKept t) ∧
    (∀ (i : Instr) (m : Memory) (t t' : State), exec i s = .next t →
      exec i { s with mem := m } = .next t' → (∀ a b imm7, i ≠ .lw a b imm7) →
      t.regs = t'.regs ∧ t.pc = t'.pc ∧ t.run = t'.run)

/-- R23: an instruction writes no register but its destination, and its effect depends on no register
but its sources: two states that agree on the sources, the memory and the pc give the same
destination, memory and pc. -/
def Obligations.InstructionsUseOnlyTheirRegisters : Prop :=
  (∀ (i : Instr) (s t : State), exec i s = .next t →
    ∀ r, destination i ≠ some r → t.readReg r = s.readReg r) ∧
  (∀ (i : Instr) (s s' t t' : State), exec i s = .next t → exec i s' = .next t' →
    (∀ r ∈ sources i, s.readReg r = s'.readReg r) → s.mem = s'.mem → s.pc = s'.pc →
    t.pc = t'.pc ∧ t.mem = t'.mem ∧ ∀ r, destination i = some r → t.readReg r = t'.readReg r)

/-! ### The step -/

/-- R33: a step whose pc is in range and whose word decodes to i runs i, and counts it if it completes
(decision D3, log 3); a stop of i is the step's stop. -/
def Obligations.StepRunsTheDecodedInstruction : Prop :=
  ∀ (s : State) (i : Instr), s.Ready → decode (s.readMem s.fetchAddress) = .ok i →
    (∀ t, exec i s = .next t → step s = .next { t with steps := t.steps + 1 }) ∧
    (∀ f, exec i s = .fault f → step s = .fault f) ∧
    (∀ r, exec i s = .refused r → step s = .refused r)

/-- R33, R120, R37: from a RUNNING instance with no fault and its pc in range every step completes,
counts one (decision D3, log 3) and records no fault: no instruction raises a fatal condition. -/
def Obligations.ReadyStepsComplete : Prop :=
  ∀ s : State, s.Ready →
    ∃ t, step s = .next t ∧ t.steps = s.steps + 1 ∧ t.fault = none

/-- R121, R122: on a RUNNING instance with no fault recorded, a step faults exactly when the pc is out
of range, with ProgramCounterOverflow and that pc; UnsupportedOpcode never occurs. The negative case
is decision D2 (log 2). -/
def Obligations.StepFaultsExactlyOnPcOverflow : Prop :=
  ∀ (s : State) (f : Fault), s.fault = none → s.run = .running →
    (step s = .fault f ↔ (s.pc < 0 ∨ 0xFFFF < s.pc) ∧ f = .programCounterOverflow s.pc)

/-- R36, R124, R126: no step is executed where a fault is recorded, which is answered again, or where
the instance is HALTED (decisions D4, D10 and D15; log 4, log 10, log 12). -/
def Obligations.StoppedInstanceMakesNoStep : Prop :=
  ∀ s : State,
    (∀ f, s.fault = some f → step s = .fault f) ∧
    (s.fault = none → s.run = .halted → step s = .refused .halted)

/-- R36, R78, R113: a step reaches HALTED exactly when the word at the pc is one of 0xE000..0xE07F
(the words by the opcode numbers of decision D1, log 1), and then it changes no register, memory or
pc. -/
def Obligations.HaltedOnlyByTheHaltForm : Prop :=
  ∀ s t : State, step s = .next t →
    (t.run = .halted ↔
      0xE000 ≤ (s.readMem s.fetchAddress).toNat ∧ (s.readMem s.fetchAddress).toNat ≤ 0xE07F) ∧
    (t.run = .halted → t.regs = s.regs ∧ t.mem = s.mem ∧ t.pc = s.pc)

/-- R121: which instructions can leave a pc out of range: a taken BEQ whose target lies outside, or
an instruction other than JALR and the halt form at pc 0xFFFF, which leaves 0x10000. The negative
case is decision D2 (log 2). -/
def Obligations.PcLeavesTheRangeOnlySo : Prop :=
  ∀ (s t : State), step s = .next t → (t.pc < 0 ∨ 0xFFFF < t.pc) →
    ∃ i, decode (s.readMem s.fetchAddress) = .ok i ∧
      (∀ a b x, i ≠ .jalr a b x) ∧ (∀ x, i ≠ .halt x) ∧
      ((s.pc = 0xFFFF ∧ t.pc = 0x10000) ∨
        ∃ a b imm7, i = .beq a b imm7 ∧ s.readReg a = s.readReg b ∧
          t.pc = s.pc + imm7.toInt + 1)

/-- R30: every pc a step can produce lies in -63..0x1003F, and the step that produced it fetched from
0..0xFFFF (decision D2, log 2). -/
def Obligations.StepPcStaysWithinBounds : Prop :=
  ∀ s t : State, step s = .next t →
    0 ≤ s.pc ∧ s.pc ≤ 0xFFFF ∧ -63 ≤ t.pc ∧ t.pc ≤ 0x1003F

/-- R79: the ignored bits do not change what a step does. Two words at the pc that agree outside bits
6..3, for ADD and NAND, or outside bits 6..0, for JALR and its halt form, lead to the same registers,
pc and run state, and to the same memory but for the word itself (decision D7, log 7). -/
def Obligations.IgnoredBitsDoNotMatter : Prop :=
  ∀ (s : State) (w w' : Word), s.Ready →
    ((w &&& 0xFF87 = w' &&& 0xFF87 ∧ (w &&& 0xE000 = 0x0000 ∨ w &&& 0xE000 = 0x4000)) ∨
      (w &&& 0xFF80 = w' &&& 0xFF80 ∧ w &&& 0xE000 = 0xE000)) →
    ∃ t t', step (s.writeMem s.fetchAddress w.val) = .next t ∧
      step (s.writeMem s.fetchAddress w'.val) = .next t' ∧
      t.regs = t'.regs ∧ t.pc = t'.pc ∧ t.run = t'.run ∧
      ∀ addr, addr ≠ s.fetchAddress → t.readMem addr = t'.readMem addr

/-- R65: a store to the next address is what the very next step executes. -/
def Obligations.NextFetchSeesTheStore : Prop :=
  ∀ (s : State) (a b : Reg) (imm7 : BitVec 7) (j : Instr), s.Ready → s.pc < 0xFFFF →
    decode (s.readMem s.fetchAddress) = .ok (.sw a b imm7) →
    (effectiveAddress s b imm7).val = s.pc + 1 → decode (s.readReg a) = .ok j →
    ∃ t, step s = .next t ∧ t.Ready ∧ t.readMem t.fetchAddress = s.readReg a ∧
      step t = retire (exec j t)

/-! ### The invariant -/

/-- R53, R30, R113, R121: every step keeps the model's invariant: canonical memory, a pc within what
a step can leave, a HALTED instance at a halt word and without a fault, a recorded fault that is this
pc's overflow. It rests on decisions D2, D4 and D10 (log 2, log 4, log 10) and on the model's
canonical form (log 9). -/
def Obligations.StepKeepsTheInvariant : Prop :=
  ∀ s t : State, s.Inv → step s = .next t → t.Inv

/-- R39: the state after reset satisfies the model's invariant. -/
def Obligations.ResetSatisfiesTheInvariant : Prop := State.reset.Inv

/-- R56, R140: so does the state after a reset with any image that is loaded. -/
def Obligations.LoadSatisfiesTheInvariant : Prop :=
  ∀ (image : List Int) (s : State), State.load image = .ok s → s.Inv

/-- R40, R124: a whole run call keeps the invariant, whatever its outcome, the recorded fault
included (decision D10, log 10). -/
def Obligations.RunKeepsTheInvariant : Prop :=
  ∀ (budget : Int) (s t : State) (o : RunOutcome), s.Inv → run budget s = .ok (o, t) → t.Inv

/-! ### Runs -/

/-- R63: after any number of steps an address reads what the last SW to it stored, or, if there was
none, what it read before; from a loaded image that is the image's word for an address below N and 0
elsewhere. -/
def Obligations.ReadsSeeTheLastStore : Prop :=
  (∀ (k : Nat) (s t : State) (addr : Word), Host.Core.run Sys2Proof.core k s = .next t →
    t.readMem addr = (State.lastStore addr k s).getD (s.readMem addr)) ∧
  (∀ (image : List Int) (s t : State) (k : Nat) (addr : Word), State.load image = .ok s →
    Host.Core.run Sys2Proof.core k s = .next t → State.lastStore addr k s = none →
    (t.readMem addr).val = (image[addr.toNat]?).getD 0)

/-- R42: a run call that ends by budget can be resumed: the next call continues from the state left,
and both together are one call with both budgets; a call that ended otherwise would have ended so
with any larger budget (decisions D14 and D16; log 11, log 18). -/
def Obligations.RunCallsResume : Prop :=
  ∀ (m n : Int) (s t : State) (o : RunOutcome), 1 ≤ m → 1 ≤ n → run m s = .ok (o, t) →
    (o = .budgetExhausted → run (m + n) s = run n t) ∧
    (o ≠ .budgetExhausted → run (m + n) s = .ok (o, t))

/-- R40, R41, R42, R43, R124: each of a run call's three outcomes in terms of steps: BudgetExhausted
after exactly `budget` steps that leave the instance RUNNING, Halted at the first HALTED state within
the budget, and a fault at the first state within the budget whose step raises it, that state being
left with the fault recorded (decisions D4, D10 and D15; log 4, log 10, log 12). -/
def Obligations.RunOutcomesAreItsSteps : Prop :=
  ∀ (n : Nat) (s t : State), 1 ≤ n → s.fault = none →
    (run n s = .ok (.budgetExhausted, t) ↔
      Host.Core.run Sys2Proof.core n s = .next t ∧ t.run = .running) ∧
    (run n s = .ok (.halted, t) ↔
      ∃ k, k ≤ n ∧ Host.Core.run Sys2Proof.core k s = .next t ∧ t.run = .halted) ∧
    (∀ f, run n s = .ok (.fault f, t) ↔
      ∃ (k : Nat) (u : State), k < n ∧ Host.Core.run Sys2Proof.core k s = .next u ∧
        u.run = .running ∧ step u = .fault f ∧ t = u.raise f)

/-- R127, R124: a fatal condition is precise. The state the host reads after it is the state before
the step that raised it, every step before it has completed, no register, memory, pc, run state or
count has changed, and the fault is recorded. The state left and the record are decision D10
(log 10), that the raising step is not counted is decision D3 (R37, log 3). -/
def Obligations.FatalConditionsArePrecise : Prop :=
  ∀ (n : Nat) (s t : State) (f : Fault), 1 ≤ n → s.fault = none →
    run n s = .ok (.fault f, t) →
    ∃ (k : Nat) (u : State), k < n ∧ Host.Core.run Sys2Proof.core k s = .next u ∧
      step u = .fault f ∧ t.observe = u.observe ∧ t.regs = u.regs ∧ t.mem = u.mem ∧
      t.pc = u.pc ∧ t.run = u.run ∧ t.steps = u.steps ∧ t.fault = some f

/-- R40, R124: a run call on an instance with a recorded fault returns that fault, makes no step and
changes nothing (decision D10, log 10). -/
def Obligations.RecordedFaultIsReturnedWithoutAStep : Prop :=
  ∀ (n : Int) (s : State) (f : Fault), s.fault = some f → 1 ≤ n → run n s = .ok (.fault f, s)

/-- R40: a run call with a budget below 1 is refused (decision D5, log 5). -/
def Obligations.NonPositiveBudgetIsRefused : Prop :=
  ∀ (budget : Int) (s : State), budget < 1 →
    run budget s = .error (.budgetNotPositive budget)

/-- R27, R40: a run call with a positive budget always returns one of the three outcomes. -/
def Obligations.RunCallsAlwaysAnswer : Prop :=
  ∀ (budget : Int) (s : State), 1 ≤ budget → ∃ o t, run budget s = .ok (o, t)

/-- R36, R43, R124: after a call that ended Halted or with a fault, every later call returns the same
outcome and changes nothing (decisions D4 and D10; log 4, log 10). -/
def Obligations.StoppedInstanceStaysStopped : Prop :=
  ∀ (m n : Int) (s t : State) (o : RunOutcome), 1 ≤ m → 1 ≤ n → run m s = .ok (o, t) →
    o ≠ .budgetExhausted → run n t = .ok (o, t)

/-- R37: the step counter counts the executed steps, the halting one included (decision D3, log 3). -/
def Obligations.StepCounterCountsSteps : Prop :=
  ∀ (k : Nat) (s t : State), Host.Core.run Sys2Proof.core k s = .next t → t.steps = s.steps + k

/-! ### What programs build from the instructions -/

/-- R114: a call and its return. `jalr rL, rT` leaves in `rL` the address after it, and `jalr r0, rL`
goes there as long as `rL` still holds it. -/
def Obligations.CallThenReturnComesBack : Prop :=
  ∀ (L T : Reg) (x x' : BitVec 7) (s u : State) , L ≠ .r0 → 0 ≤ s.pc → s.pc < 0xFFFF →
    ∃ t, exec (.jalr L T x) s = .next t ∧
      (L ≠ T → t.pc = (s.readReg T).val) ∧
      (u.readReg L = t.readReg L →
        ∃ v, exec (.jalr .r0 L x') u = .next v ∧ v.pc = s.pc + 1 ∧ u.RegsKept v ∧ u.MemKept v)

/-- R93: `lui rA, k >> 6` and then `addi rA, rA, k & 0x3F` leave any 16-bit constant k in rA. -/
def Obligations.LuiThenAddiBuildsAnyConstant : Prop :=
  ∀ (a : Reg) (k : Word) (s : State), a ≠ .r0 →
    ∃ t u, exec (.lui a (BitVec.ofNat 10 (k.toNat >>> 6))) s = .next t ∧
      exec (.addi a a (BitVec.ofNat 7 (k.toNat &&& 0x3F))) t = .next u ∧
      u.readReg a = k ∧ s.RegsKeptBut u a ∧ s.MemKept u ∧ u.pc = s.pc + 2

/-- R94: subtraction in software, `x + NAND(y, y) + 1`. -/
def Obligations.NandBuildsSubtraction : Prop :=
  ∀ (d x y : Reg) (i i' : BitVec 4) (s : State), d ≠ .r0 → x ≠ d →
    ∃ t u v, exec (.nand d y y i) s = .next t ∧ exec (.addi d d 1) t = .next u ∧
      exec (.add d x d i') u = .next v ∧ v.readReg d = s.readReg x - s.readReg y ∧
      s.RegsKeptBut v d

/-- R145: `beq r0, r0, -1` (the word 0xC07F, by the opcode numbers of decision D1, log 1) is an
endless loop: a run call on it ends BudgetExhausted with nothing changed but the step count, which is
the budget higher (R37, decision D3, log 3). -/
def Obligations.SelfBranchExhaustsEveryBudget : Prop :=
  ∀ (s : State) (n : Nat), s.Ready → s.readMem s.fetchAddress = 0xC07F → 1 ≤ n →
    run n s = .ok (.budgetExhausted, { s with steps := s.steps + n })
end

