-- ==== Sys2Proof/Laws/Decode.lean ====
section
/-! SUPPORT. The fields of a word as arithmetic on its value, and the fields of a packed word. -/

namespace Sys2Proof

/-! ### The opcode map -/

@[simp] theorem opcodeNumber_add : opcodeNumber .add = 0 := rfl
@[simp] theorem opcodeNumber_addi : opcodeNumber .addi = 1 := rfl
@[simp] theorem opcodeNumber_nand : opcodeNumber .nand = 2 := rfl
@[simp] theorem opcodeNumber_lui : opcodeNumber .lui = 3 := rfl
@[simp] theorem opcodeNumber_sw : opcodeNumber .sw = 4 := rfl
@[simp] theorem opcodeNumber_lw : opcodeNumber .lw = 5 := rfl
@[simp] theorem opcodeNumber_beq : opcodeNumber .beq = 6 := rfl
@[simp] theorem opcodeNumber_jalr : opcodeNumber .jalr = 7 := rfl

theorem opcodeNumber_lt (o : Opcode) : opcodeNumber o < 8 := by cases o <;> decide

/-- The map and its inverse agree. -/
theorem opcodeOf_opcodeNumber (o : Opcode) :
    opcodeOf (BitVec.ofNat 3 (opcodeNumber o)) = some o := by
  cases o <;> rfl

/-- An opcode that a number selects has that number. -/
theorem opcodeNumber_of_opcodeOf {n : BitVec 3} {o : Opcode} (h : opcodeOf n = some o) :
    opcodeNumber o = n.toNat := by
  revert n o; decide

/-! ### Register fields -/

theorem Reg.index_lt (r : Reg) : r.index < 8 := by cases r <;> decide

@[simp] theorem Reg.ofBits_index (r : Reg) : Reg.ofBits (BitVec.ofNat 3 r.index) = r := by
  cases r <;> rfl

@[simp] theorem Reg.index_ofBits (b : BitVec 3) : (Reg.ofBits b).index = b.toNat := by
  revert b; decide

theorem Reg.index_inj {r q : Reg} : r.index = q.index ↔ r = q := by
  cases r <;> cases q <;> decide

/-! ### Fields as division and remainder -/

theorem extract_toNat (w : Word) (lo n : Nat) :
    (w.extractLsb' lo n).toNat = w.toNat / 2 ^ lo % 2 ^ n := by
  simp [BitVec.extractLsb'_toNat, Nat.shiftRight_eq_div_pow]

theorem decodeFields_op (w : Word) : (decodeFields w).op.toNat = w.toNat / 8192 := by
  have := w.isLt
  show (w.extractLsb' 13 3).toNat = _
  rw [extract_toNat]
  omega

theorem decodeFields_a (w : Word) : (decodeFields w).a.index = w.toNat / 1024 % 8 := by
  show (Reg.ofBits (w.extractLsb' 10 3)).index = _
  rw [Reg.index_ofBits, extract_toNat]
  norm_num

theorem decodeFields_b (w : Word) : (decodeFields w).b.index = w.toNat / 128 % 8 := by
  show (Reg.ofBits (w.extractLsb' 7 3)).index = _
  rw [Reg.index_ofBits, extract_toNat]
  norm_num

theorem decodeFields_c (w : Word) : (decodeFields w).c.index = w.toNat % 8 := by
  show (Reg.ofBits (w.extractLsb' 0 3)).index = _
  rw [Reg.index_ofBits, extract_toNat]
  omega

theorem decodeFields_unused (w : Word) : (decodeFields w).unused.toNat = w.toNat / 8 % 16 := by
  show (w.extractLsb' 3 4).toNat = _
  rw [extract_toNat]
  norm_num

theorem decodeFields_imm7 (w : Word) : (decodeFields w).imm7.toNat = w.toNat % 128 := by
  show (w.extractLsb' 0 7).toNat = _
  rw [extract_toNat]
  omega

theorem decodeFields_imm10 (w : Word) : (decodeFields w).imm10.toNat = w.toNat % 1024 := by
  show (w.extractLsb' 0 10).toNat = _
  rw [extract_toNat]
  omega

/-! ### Packed words -/

/-- A packed word as a number: nothing overflows. -/
theorem packAB_toNat (o : Opcode) (a b : Reg) {low : Nat} (h : low < 128) :
    (packAB o a b low).toNat =
      opcodeNumber o * 8192 + a.index * 1024 + b.index * 128 + low := by
  have := opcodeNumber_lt o
  have := a.index_lt
  have := b.index_lt
  simp only [packAB, BitVec.toNat_ofNat]
  omega

/-- The LUI word as a number. -/
theorem encode_lui_toNat (a : Reg) (imm : BitVec 10) :
    (encode (.lui a imm)).toNat = 3 * 8192 + a.index * 1024 + imm.toNat := by
  have := a.index_lt
  have := imm.isLt
  simp only [encode, opcodeNumber_lui, BitVec.toNat_ofNat]
  omega

/-- The fields of a packed word: opcode, registers and the 7 low bits. -/
theorem decodeFields_packAB (o : Opcode) (a b : Reg) {low : Nat} (h : low < 128) :
    (decodeFields (packAB o a b low)).op = BitVec.ofNat 3 (opcodeNumber o) ∧
      (decodeFields (packAB o a b low)).a = a ∧ (decodeFields (packAB o a b low)).b = b ∧
      (decodeFields (packAB o a b low)).c.index = low % 8 ∧
      (decodeFields (packAB o a b low)).unused = BitVec.ofNat 4 (low / 8) ∧
      (decodeFields (packAB o a b low)).imm7 = BitVec.ofNat 7 low := by
  have hp := packAB_toNat o a b h
  have := opcodeNumber_lt o
  have := a.index_lt
  have := b.index_lt
  refine ⟨?_, ?_, ?_, ?_, ?_, ?_⟩
  · apply BitVec.eq_of_toNat_eq
    rw [decodeFields_op, BitVec.toNat_ofNat, hp]; omega
  · apply Reg.index_inj.1
    rw [decodeFields_a, hp]; omega
  · apply Reg.index_inj.1
    rw [decodeFields_b, hp]; omega
  · rw [decodeFields_c, hp]; omega
  · apply BitVec.eq_of_toNat_eq
    rw [decodeFields_unused, BitVec.toNat_ofNat, hp]; omega
  · apply BitVec.eq_of_toNat_eq
    rw [decodeFields_imm7, BitVec.toNat_ofNat, hp]; omega

/-- The fields of a packed word of shape RRR. -/
theorem decodeFields_packRRR (o : Opcode) (a b c : Reg) (x : BitVec 4) :
    let f := decodeFields (packAB o a b (x.toNat * 8 + c.index))
    opcodeOf f.op = some o ∧ f.a = a ∧ f.b = b ∧ f.c = c ∧ f.unused = x := by
  have := x.isLt
  have := c.index_lt
  obtain ⟨hop, ha, hb, hc, hu, -⟩ :=
    decodeFields_packAB o a b (low := x.toNat * 8 + c.index) (by omega)
  refine ⟨by rw [hop, opcodeOf_opcodeNumber], ha, hb, Reg.index_inj.1 (by omega), hu.trans ?_⟩
  apply BitVec.eq_of_toNat_eq
  rw [BitVec.toNat_ofNat]
  omega

/-- The fields of a packed word of shape RRI. -/
theorem decodeFields_packRRI (o : Opcode) (a b : Reg) (imm : BitVec 7) :
    let f := decodeFields (packAB o a b imm.toNat)
    opcodeOf f.op = some o ∧ f.a = a ∧ f.b = b ∧ f.imm7 = imm := by
  obtain ⟨hop, ha, hb, -, -, hi⟩ := decodeFields_packAB o a b imm.isLt
  exact ⟨by rw [hop, opcodeOf_opcodeNumber], ha, hb, hi.trans (by simp)⟩

/-! ### What a decoded instruction says of its word -/

/-- Every opcode field selects an opcode. -/
theorem opcodeOf_isSome (n : BitVec 3) : ∃ o, opcodeOf n = some o := by
  apply Option.isSome_iff_exists.1
  revert n
  decide

/-- All that `decode w = .ok i` says: the opcode, its number, and the fields of its shape. -/
theorem decode_cases {w : Word} {i : Instr} (h : decode w = .ok i) :
    ∃ o, opcodeOf (decodeFields w).op = some o ∧ w.toNat / 8192 = opcodeNumber o ∧
      (let f := decodeFields w
       match o with
       | .add => i = .add f.a f.b f.c f.unused
       | .addi => i = .addi f.a f.b f.imm7
       | .nand => i = .nand f.a f.b f.c f.unused
       | .lui => i = .lui f.a f.imm10
       | .sw => i = .sw f.a f.b f.imm7
       | .lw => i = .lw f.a f.b f.imm7
       | .beq => i = .beq f.a f.b f.imm7
       | .jalr => i = if f.a = .r0 ∧ f.b = .r0 then .halt f.imm7 else .jalr f.a f.b f.imm7) := by
  obtain ⟨o, ho⟩ := opcodeOf_isSome (decodeFields w).op
  refine ⟨o, ho, by rw [opcodeNumber_of_opcodeOf ho, decodeFields_op], ?_⟩
  unfold decode at h
  simp only [ho] at h
  cases o <;> simp only [Except.ok.injEq] at h ⊢ <;> try exact h.symm
  split at h <;> simp_all

/-- `sext_7` is the two's complement reading of 7 bits. -/
theorem sext7_eq_toInt (v : BitVec 7) : sext7 v = v.toInt := by
  have := v.isLt
  rw [BitVec.toInt_eq_toNat_cond]
  simp only [sext7]
  split <;> split <;> omega

end Sys2Proof
end

