-- ==== Sys2Proof/Laws/State.lean ====
section
/-! SUPPORT. What each state update does to each field, and what a register or memory read sees of
it: one lemma per field per update, so that no proof unfolds a record update. -/

namespace Sys2Proof.Machine

section
variable (s : State) (i : Reg) (v : Int) (addr : Word) (f : Fault)

/-! ### writeReg -/
@[simp] theorem State.writeReg_regs : (s.writeReg i v).regs = s.regs.write i v := rfl
@[simp] theorem State.writeReg_mem : (s.writeReg i v).mem = s.mem := rfl
@[simp] theorem State.writeReg_pc : (s.writeReg i v).pc = s.pc := rfl
@[simp] theorem State.writeReg_run : (s.writeReg i v).run = s.run := rfl
@[simp] theorem State.writeReg_steps : (s.writeReg i v).steps = s.steps := rfl
@[simp] theorem State.writeReg_fault : (s.writeReg i v).fault = s.fault := rfl
@[simp] theorem State.writeReg_readMem : (s.writeReg i v).readMem addr = s.readMem addr := rfl

/-! ### writeMem -/
@[simp] theorem State.writeMem_regs : (s.writeMem addr v).regs = s.regs := rfl
@[simp] theorem State.writeMem_mem : (s.writeMem addr v).mem = Memory.write s.mem addr v := rfl
@[simp] theorem State.writeMem_pc : (s.writeMem addr v).pc = s.pc := rfl
@[simp] theorem State.writeMem_run : (s.writeMem addr v).run = s.run := rfl
@[simp] theorem State.writeMem_steps : (s.writeMem addr v).steps = s.steps := rfl
@[simp] theorem State.writeMem_fault : (s.writeMem addr v).fault = s.fault := rfl
@[simp] theorem State.writeMem_readReg : (s.writeMem addr v).readReg i = s.readReg i := rfl

/-! ### setPc -/
@[simp] theorem State.setPc_regs : (s.setPc v).regs = s.regs := rfl
@[simp] theorem State.setPc_mem : (s.setPc v).mem = s.mem := rfl
@[simp] theorem State.setPc_pc : (s.setPc v).pc = v := rfl
@[simp] theorem State.setPc_run : (s.setPc v).run = s.run := rfl
@[simp] theorem State.setPc_steps : (s.setPc v).steps = s.steps := rfl
@[simp] theorem State.setPc_fault : (s.setPc v).fault = s.fault := rfl
@[simp] theorem State.setPc_readReg : (s.setPc v).readReg i = s.readReg i := rfl
@[simp] theorem State.setPc_readMem : (s.setPc v).readMem addr = s.readMem addr := rfl

/-! ### advance -/
@[simp] theorem State.advance_regs : s.advance.regs = s.regs := rfl
@[simp] theorem State.advance_mem : s.advance.mem = s.mem := rfl
@[simp] theorem State.advance_pc : s.advance.pc = s.pc + 1 := rfl
@[simp] theorem State.advance_run : s.advance.run = s.run := rfl
@[simp] theorem State.advance_steps : s.advance.steps = s.steps := rfl
@[simp] theorem State.advance_fault : s.advance.fault = s.fault := rfl
@[simp] theorem State.advance_readReg : s.advance.readReg i = s.readReg i := rfl
@[simp] theorem State.advance_readMem : s.advance.readMem addr = s.readMem addr := rfl

/-! ### halt -/
@[simp] theorem State.halt_regs : s.halt.regs = s.regs := rfl
@[simp] theorem State.halt_mem : s.halt.mem = s.mem := rfl
@[simp] theorem State.halt_pc : s.halt.pc = s.pc := rfl
@[simp] theorem State.halt_run : s.halt.run = .halted := rfl
@[simp] theorem State.halt_steps : s.halt.steps = s.steps := rfl
@[simp] theorem State.halt_fault : s.halt.fault = s.fault := rfl
@[simp] theorem State.halt_readReg : s.halt.readReg i = s.readReg i := rfl
@[simp] theorem State.halt_readMem : s.halt.readMem addr = s.readMem addr := rfl

/-! ### countStep -/
@[simp] theorem State.countStep_regs : s.countStep.regs = s.regs := rfl
@[simp] theorem State.countStep_mem : s.countStep.mem = s.mem := rfl
@[simp] theorem State.countStep_pc : s.countStep.pc = s.pc := rfl
@[simp] theorem State.countStep_run : s.countStep.run = s.run := rfl
@[simp] theorem State.countStep_steps : s.countStep.steps = s.steps + 1 := rfl
@[simp] theorem State.countStep_fault : s.countStep.fault = s.fault := rfl
@[simp] theorem State.countStep_readReg : s.countStep.readReg i = s.readReg i := rfl
@[simp] theorem State.countStep_readMem : s.countStep.readMem addr = s.readMem addr := rfl

/-! ### raise -/
@[simp] theorem State.raise_regs : (s.raise f).regs = s.regs := rfl
@[simp] theorem State.raise_mem : (s.raise f).mem = s.mem := rfl
@[simp] theorem State.raise_pc : (s.raise f).pc = s.pc := rfl
@[simp] theorem State.raise_run : (s.raise f).run = s.run := rfl
@[simp] theorem State.raise_steps : (s.raise f).steps = s.steps := rfl
@[simp] theorem State.raise_fault : (s.raise f).fault = some f := rfl
@[simp] theorem State.raise_readReg : (s.raise f).readReg i = s.readReg i := rfl
@[simp] theorem State.raise_readMem : (s.raise f).readMem addr = s.readMem addr := rfl

/-! ### writeAndAdvance -/
@[simp] theorem State.writeAndAdvance_regs :
    (s.writeAndAdvance i v).regs = s.regs.write i v := rfl
@[simp] theorem State.writeAndAdvance_mem : (s.writeAndAdvance i v).mem = s.mem := rfl
@[simp] theorem State.writeAndAdvance_pc : (s.writeAndAdvance i v).pc = s.pc + 1 := rfl
@[simp] theorem State.writeAndAdvance_run : (s.writeAndAdvance i v).run = s.run := rfl
@[simp] theorem State.writeAndAdvance_steps : (s.writeAndAdvance i v).steps = s.steps := rfl
@[simp] theorem State.writeAndAdvance_fault : (s.writeAndAdvance i v).fault = s.fault := rfl
@[simp] theorem State.writeAndAdvance_readMem :
    (s.writeAndAdvance i v).readMem addr = s.readMem addr := rfl

/-! ### linkAndJump -/
@[simp] theorem linkAndJump_mem (a b : Reg) : (linkAndJump s a b).mem = s.mem := rfl
@[simp] theorem linkAndJump_run (a b : Reg) : (linkAndJump s a b).run = s.run := rfl
@[simp] theorem linkAndJump_steps (a b : Reg) : (linkAndJump s a b).steps = s.steps := rfl
@[simp] theorem linkAndJump_fault (a b : Reg) : (linkAndJump s a b).fault = s.fault := rfl
@[simp] theorem linkAndJump_regs (a b : Reg) :
    (linkAndJump s a b).regs = s.regs.write a (s.pc + 1) := rfl
@[simp] theorem linkAndJump_readMem (a b : Reg) :
    (linkAndJump s a b).readMem addr = s.readMem addr := rfl

end

end Sys2Proof.Machine
end

