-- ==== Sys2Proof/Laws/Registers.lean ====
section
/-! SUPPORT. `mod16` and the register file: what a read sees after a write. -/

namespace Sys2Proof.Machine

theorem mod16_toNat (v : Int) : ((mod16 v).toNat : Int) = v % 65536 := by
  simp only [mod16, BitVec.toNat_ofInt]
  omega

/-- A 16-bit value is its own reduction. -/
@[simp] theorem mod16_val (w : Word) : mod16 w.val = w := by
  apply BitVec.eq_of_toNat_eq
  have h := mod16_toNat w.val
  have := w.isLt
  simp only [Word.val] at h ⊢
  omega

/-- An integer in 0..0xFFFF is the value of its reduction. -/
theorem mod16_val_of_range {v : Int} (h0 : 0 ≤ v) (h1 : v ≤ 0xFFFF) : (mod16 v).val = v := by
  have h := mod16_toNat v
  simp only [Word.val]
  omega

theorem Word.val_range (w : Word) : 0 ≤ w.val ∧ w.val ≤ 0xFFFF := by
  have := w.isLt
  simp only [Word.val]
  omega

theorem sext7_range (v : BitVec 7) : -64 ≤ sext7 v ∧ sext7 v ≤ 63 := by
  have := v.isLt
  simp only [sext7]
  split <;> omega

@[simp] theorem RegFile.read_r0 (f : RegFile) : f.read .r0 = 0 := rfl

theorem RegFile.read_write (f : RegFile) (i r : Reg) (v : Int) :
    (f.write i v).read r = if r = i ∧ i ≠ .r0 then mod16 v else f.read r := by
  cases i <;> cases r <;> simp [RegFile.read, RegFile.write]

/-- The seven readable registers are all of a register file. -/
theorem RegFile.ext_read {f g : RegFile} (h : ∀ r, f.read r = g.read r) : f = g := by
  have h1 := h .r1; have h2 := h .r2; have h3 := h .r3; have h4 := h .r4
  have h5 := h .r5; have h6 := h .r6; have h7 := h .r7
  cases f; cases g
  simp_all [RegFile.read]

@[simp] theorem State.readReg_r0 (s : State) : s.readReg .r0 = 0 := rfl

theorem State.readReg_writeReg (s : State) (i r : Reg) (v : Int) :
    (s.writeReg i v).readReg r = if r = i ∧ i ≠ .r0 then mod16 v else s.readReg r :=
  RegFile.read_write s.regs i r v

theorem State.readReg_writeAndAdvance (s : State) (i r : Reg) (v : Int) :
    (s.writeAndAdvance i v).readReg r = if r = i ∧ i ≠ .r0 then mod16 v else s.readReg r :=
  RegFile.read_write s.regs i r v

theorem readReg_linkAndJump (s : State) (a b r : Reg) :
    (linkAndJump s a b).readReg r =
      if r = a ∧ a ≠ .r0 then mod16 (s.pc + 1) else s.readReg r :=
  RegFile.read_write s.regs a r (s.pc + 1)

/-- The jump goes to what the target register holds after the link is written. -/
theorem linkAndJump_pc (s : State) (a b : Reg) :
    (linkAndJump s a b).pc =
      if b = a ∧ a ≠ .r0 then (mod16 (s.pc + 1)).val else (s.readReg b).val := by
  show ((s.writeReg a (s.pc + 1)).readReg b).val = _
  rw [State.readReg_writeReg]
  split <;> rfl

end Sys2Proof.Machine
end

