-- ==== Sys2Proof/Laws/Memory.lean ====
section
/-! SUPPORT. The sparse store: what a read sees after a write, and that every memory operation keeps
the canonical form. -/

namespace Sys2Proof.Machine

/-! ### Reads after writes -/

theorem Memory.erase_ne (m : Memory) (a : Nat) : ∀ e ∈ Memory.erase m a, e.1 ≠ a := by
  induction m with
  | nil => simp [Memory.erase]
  | cons e m ih =>
    obtain ⟨b, w⟩ := e
    by_cases h : a = b
    · simp only [Memory.erase, h, if_true]
      exact h ▸ ih
    · intro x hx
      simp only [Memory.erase, h, if_false, List.mem_cons] at hx
      rcases hx with rfl | hx
      · exact fun h' => h h'.symm
      · exact ih x hx

theorem Memory.lookup_erase (m : Memory) (a c : Nat) :
    Memory.lookup (Memory.erase m a) c = if c = a then 0 else Memory.lookup m c := by
  induction m with
  | nil => simp [Memory.erase, Memory.lookup]
  | cons e m ih =>
    obtain ⟨b, w⟩ := e
    by_cases h : a = b
    · subst h
      simp only [Memory.erase, if_true, ih, Memory.lookup]
      split <;> rfl
    · simp only [Memory.erase, h, if_false, Memory.lookup, ih]
      by_cases hc : c = b
      · have : c ≠ a := fun h' => h (h'.symm.trans hc)
        simp [hc, Ne.symm h]
      · simp [hc]

theorem Memory.lookup_insert (m : Memory) (a c : Nat) (v : Word) (hm : ∀ e ∈ m, e.1 ≠ a) :
    Memory.lookup (Memory.insert m a v) c = if c = a then v else Memory.lookup m c := by
  induction m with
  | nil => simp [Memory.insert, Memory.lookup]
  | cons e m ih =>
    obtain ⟨b, w⟩ := e
    have hb : b ≠ a := hm (b, w) (by simp)
    have ih' := ih (fun x hx => hm x (by simp [hx]))
    by_cases h : a < b
    · simp [Memory.insert, h, Memory.lookup]
    · simp only [Memory.insert, h, if_false, Memory.lookup, ih']
      by_cases hc : c = b
      · simp [hc, hb]
      · simp [hc]

/-- What a read of any address sees after a write, in every store, canonical or not. -/
theorem Memory.read_write (m : Memory) (a c : Word) (v : Int) :
    Memory.read (Memory.write m a v) c = if c = a then mod16 v else Memory.read m c := by
  have hca : c.toNat = a.toNat ↔ c = a := BitVec.toNat_inj
  unfold Memory.read Memory.write
  by_cases hv : mod16 v = 0
  · simp only [hv, if_true, Memory.lookup_erase, hca]
  · simp only [hv, if_false]
    rw [Memory.lookup_insert _ _ _ _ (Memory.erase_ne m a.toNat), Memory.lookup_erase]
    by_cases h : c = a <;> simp [h, hca]

theorem State.readMem_writeMem (s : State) (a c : Word) (v : Int) :
    (s.writeMem a v).readMem c = if c = a then mod16 v else s.readMem c :=
  Memory.read_write s.mem a c v

/-! ### The canonical form -/

theorem Memory.wfFrom_cons {low b : Nat} {w : Word} {m : Memory} :
    Memory.wfFrom low ((b, w) :: m) = true ↔
      low ≤ b ∧ b < Config.memoryWords ∧ w ≠ 0 ∧ Memory.wfFrom (b + 1) m = true := by
  simp [Memory.wfFrom, and_assoc]

theorem Memory.wfFrom_weaken {low low' : Nat} {m : Memory} (h : low' ≤ low)
    (hm : Memory.wfFrom low m = true) : Memory.wfFrom low' m = true := by
  cases m with
  | nil => rfl
  | cons e m =>
    obtain ⟨b, w⟩ := e
    rw [Memory.wfFrom_cons] at hm ⊢
    exact ⟨h.trans hm.1, hm.2⟩

theorem Memory.wfFrom_erase {m : Memory} {low : Nat} (a : Nat)
    (hm : Memory.wfFrom low m = true) : Memory.wfFrom low (Memory.erase m a) = true := by
  induction m generalizing low with
  | nil => rfl
  | cons e m ih =>
    obtain ⟨b, w⟩ := e
    rw [Memory.wfFrom_cons] at hm
    obtain ⟨hb, ht, hw, hm⟩ := hm
    by_cases h : a = b
    · simp only [Memory.erase, h, if_true]
      exact Memory.wfFrom_weaken (by omega) (h ▸ ih hm)
    · simp only [Memory.erase, h, if_false]
      exact Memory.wfFrom_cons.2 ⟨hb, ht, hw, ih hm⟩

theorem Memory.wfFrom_insert {m : Memory} {low a : Nat} {v : Word} (hm : Memory.wfFrom low m = true)
    (ha : low ≤ a) (ht : a < Config.memoryWords) (hv : v ≠ 0) (hne : ∀ e ∈ m, e.1 ≠ a) :
    Memory.wfFrom low (Memory.insert m a v) = true := by
  induction m generalizing low with
  | nil => exact Memory.wfFrom_cons.2 ⟨ha, ht, hv, rfl⟩
  | cons e m ih =>
    obtain ⟨b, w⟩ := e
    rw [Memory.wfFrom_cons] at hm
    obtain ⟨hb, hbt, hw, hm⟩ := hm
    have hba : b ≠ a := hne (b, w) (by simp)
    by_cases h : a < b
    · simp only [Memory.insert, h, if_true]
      exact Memory.wfFrom_cons.2 ⟨ha, ht, hv, Memory.wfFrom_cons.2 ⟨h, hbt, hw, hm⟩⟩
    · simp only [Memory.insert, h, if_false]
      exact Memory.wfFrom_cons.2
        ⟨hb, hbt, hw, ih hm (by omega) (fun x hx => hne x (by simp [hx]))⟩

/-- The one operation that changes memory keeps the canonical form. -/
theorem Memory.wf_write {m : Memory} (addr : Word) (v : Int) (hm : Memory.wf m = true) :
    Memory.wf (Memory.write m addr v) = true := by
  unfold Memory.wf Memory.write at *
  split
  · exact Memory.wfFrom_erase addr.toNat hm
  · rename_i hv
    exact Memory.wfFrom_insert (Memory.wfFrom_erase addr.toNat hm) (Nat.zero_le _)
      addr.isLt hv (Memory.erase_ne m addr.toNat)

/-- The store of an image is canonical, as far as the image fits. -/
theorem wfFrom_imageCells (image : List Int) (addr : Nat)
    (h : addr + image.length ≤ Config.memoryWords) :
    Memory.wfFrom addr (imageCells addr image) = true := by
  induction image generalizing addr with
  | nil => rfl
  | cons v vs ih =>
    simp only [List.length_cons] at h
    have ih' := ih (addr + 1) (by omega)
    by_cases hv : mod16 v = 0
    · simp only [imageCells, hv, if_true]
      exact Memory.wfFrom_weaken (by omega) ih'
    · simp only [imageCells, hv, if_false]
      exact Memory.wfFrom_cons.2 ⟨le_rfl, by omega, hv, ih'⟩

/-- Reset's memory has the canonical form. -/
theorem wf_reset_mem : Memory.wf State.reset.mem = true := rfl

/-- `load` keeps it too: a loaded instance's memory has the canonical form. -/
theorem wf_load_mem {image : List Int} {s : State} (h : State.load image = .ok s) :
    Memory.wf s.mem = true := by
  unfold State.load at h
  split at h
  · cases h
  · rename_i hp
    obtain rfl : { State.reset with mem := imageCells 0 image } = s := by injection h
    apply wfFrom_imageCells
    unfold imageProblem at hp
    split at hp
    · cases hp
    · omega

end Sys2Proof.Machine
end

