-- ==== Sys2Proof/Laws/PerInstr.lean ====
section
/-! SUPPORT. The per-instruction family RowBits: every instruction's word has the fixed bits of its
row of the opcode table. -/

namespace Sys2Proof.Laws.RowBits

/-- A row's mask as the opcode table gives it (the alias lli's condition is not a mask: its row has
ADDI's). -/
def mask : Instr → Word
  | .halt _ => 0xFF80
  | .nop _ => 0xFF87
  | _ => 0xE000

/-- A row's match as the opcode table gives it. -/
def bits : Instr → Word
  | .add _ _ _ _ => 0x0000
  | .addi _ _ _ => 0x2000
  | .nand _ _ _ _ => 0x4000
  | .lui _ _ => 0x6000
  | .sw _ _ _ => 0x8000
  | .lw _ _ _ => 0xA000
  | .beq _ _ _ => 0xC000
  | .jalr _ _ _ => 0xE000
  | .halt _ => 0xE000
  | .nop _ => 0x0000
  | .lli _ _ => 0x2000

/-- The instruction's word has its row's fixed bits. -/
def Statement (i : Instr) : Prop := encode i &&& mask i = bits i

/-- The three opcode bits of a word, as the table's mask 0xE000 picks them out. -/
theorem opcode_bits {w : Word} {n : Nat} (hn : n < 8) (h : w.toNat / 8192 = n) :
    w &&& 0xE000 = BitVec.ofNat 16 (n * 8192) := by
  have hop : w.extractLsb' 13 3 = BitVec.ofNat 3 n := by
    apply BitVec.eq_of_toNat_eq
    have := w.isLt
    rw [extract_toNat, BitVec.toNat_ofNat]
    omega
  have hw : w &&& 0xE000 = w.extractLsb' 13 3 ++ (0 : BitVec 13) := by
    apply BitVec.eq_of_getLsbD_eq
    intro k hk
    have : ∀ k < 16, (0xE000 : Word).getLsbD k = decide (13 ≤ k) := by decide
    simp only [BitVec.getLsbD_and, this k hk, BitVec.getLsbD_append, BitVec.getLsbD_extractLsb']
    by_cases h13 : k < 13
    · simp [h13, show ¬ 13 ≤ k by omega]
    · simp [h13, show 13 ≤ k by omega, show k - 13 < 3 by omega, show 13 + (k - 13) = k by omega]
  rw [hw, hop]
  clear hw hop h
  revert n
  decide

theorem packAB_bits (o : Opcode) (a b : Reg) {low : Nat} (h : low < 128) :
    packAB o a b low &&& 0xE000 = BitVec.ofNat 16 (opcodeNumber o * 8192) := by
  apply opcode_bits (opcodeNumber_lt o)
  rw [packAB_toNat o a b h]
  have := opcodeNumber_lt o
  have := a.index_lt
  have := b.index_lt
  omega

theorem low_lt (x : BitVec 4) (c : Reg) : x.toNat * 8 + c.index < 128 := by
  have := x.isLt
  have := c.index_lt
  omega

theorem add (a b c : Reg) (ignored : BitVec 4) : Statement (.add a b c ignored) :=
  packAB_bits .add a b (low_lt ignored c)
theorem addi (a b : Reg) (imm7 : BitVec 7) : Statement (.addi a b imm7) :=
  packAB_bits .addi a b imm7.isLt
theorem nand (a b c : Reg) (ignored : BitVec 4) : Statement (.nand a b c ignored) :=
  packAB_bits .nand a b (low_lt ignored c)
theorem lui (a : Reg) (imm10 : BitVec 10) : Statement (.lui a imm10) := by
  apply opcode_bits (n := 3) (by omega)
  rw [encode_lui_toNat]
  have := a.index_lt
  have := imm10.isLt
  omega
theorem sw (a b : Reg) (imm7 : BitVec 7) : Statement (.sw a b imm7) :=
  packAB_bits .sw a b imm7.isLt
theorem lw (a b : Reg) (imm7 : BitVec 7) : Statement (.lw a b imm7) :=
  packAB_bits .lw a b imm7.isLt
theorem beq (a b : Reg) (imm7 : BitVec 7) : Statement (.beq a b imm7) :=
  packAB_bits .beq a b imm7.isLt
theorem jalr (a b : Reg) (ignored : BitVec 7) : Statement (.jalr a b ignored) :=
  packAB_bits .jalr a b ignored.isLt
theorem halt (ignored : BitVec 7) : Statement (.halt ignored) := by
  revert ignored; unfold Statement; decide
theorem nop (ignored : BitVec 4) : Statement (.nop ignored) := by
  revert ignored; unfold Statement; decide
theorem lli (a : Reg) (imm6 : BitVec 6) : Statement (.lli a imm6) :=
  packAB_bits .addi a a (by have := imm6.isLt; omega)

end Sys2Proof.Laws.RowBits
end

