-- ==== Sys2Proof/Laws/Step.lean ====
section
/-! SUPPORT. What each meaning, the fetch, the step, the load and the run loop can do, said once. -/

namespace Sys2Proof.Machine

/-! ### The meanings, as the next state each gives -/

section
variable (s : State) (a b c : Reg)

theorem exec_add (x : BitVec 4) :
    exec (.add a b c x) s = .next (s.writeAndAdvance a (sumRegs s b c)) := rfl
theorem exec_addi (imm : BitVec 7) :
    exec (.addi a b imm) s = .next (s.writeAndAdvance a (sumImm s b imm)) := rfl
theorem exec_nand (x : BitVec 4) :
    exec (.nand a b c x) s = .next (s.writeAndAdvance a (nandRegs s b c)) := rfl
theorem exec_lui (imm : BitVec 10) :
    exec (.lui a imm) s = .next (s.writeAndAdvance a (upperImm imm)) := rfl
theorem exec_sw (imm : BitVec 7) :
    exec (.sw a b imm) s =
      .next (s.writeMem (effectiveAddress s b imm) (s.regVal a)).advance := rfl
theorem exec_lw (imm : BitVec 7) :
    exec (.lw a b imm) s =
      .next (s.writeAndAdvance a (s.readMem (effectiveAddress s b imm)).val) := rfl
theorem exec_beq (imm : BitVec 7) :
    exec (.beq a b imm) s = .next (s.setPc (branchTarget s a b imm)) := rfl
theorem exec_jalr (x : BitVec 7) (h : ¬ (a = .r0 ∧ b = .r0)) :
    exec (.jalr a b x) s = .next (linkAndJump s a b) := if_neg h
theorem exec_jalr_halt (x : BitVec 7) : exec (.jalr .r0 .r0 x) s = .next s.halt := rfl
theorem exec_halt (x : BitVec 7) : exec (.halt x) s = .next s.halt := rfl
theorem exec_nop (x : BitVec 4) :
    exec (.nop x) s = .next (s.writeAndAdvance .r0 (sumRegs s .r0 .r0)) := rfl
theorem exec_lli (imm : BitVec 6) :
    exec (.lli a imm) s = .next (s.writeAndAdvance a (sumImm s a (lliImm7 imm))) := rfl

end

/-! ### The fetch -/

theorem pcInRange_iff (pc : Int) : pcInRange pc = true ↔ 0 ≤ pc ∧ pc ≤ 0xFFFF := by
  unfold pcInRange
  rw [Bool.and_eq_true, decide_eq_true_iff, decide_eq_true_iff]
  rfl

theorem State.fetch_of_range {s : State} (h : 0 ≤ s.pc ∧ s.pc ≤ 0xFFFF) :
    s.fetch = .ok (s.readMem s.fetchAddress) :=
  if_pos ((pcInRange_iff s.pc).2 h)

theorem State.fetch_out_of_range {s : State} (h : ¬ (0 ≤ s.pc ∧ s.pc ≤ 0xFFFF)) :
    s.fetch = .error (.programCounterOverflow s.pc) :=
  if_neg (fun h' => h ((pcInRange_iff s.pc).1 h'))

theorem State.fetchInstr_ok_iff (s : State) (i : Instr) :
    s.fetchInstr = .ok i ↔
      (0 ≤ s.pc ∧ s.pc ≤ 0xFFFF) ∧ decode (s.readMem s.fetchAddress) = .ok i := by
  unfold State.fetchInstr
  by_cases h : 0 ≤ s.pc ∧ s.pc ≤ 0xFFFF
  · rw [State.fetch_of_range h]
    cases hd : decode (s.readMem s.fetchAddress) with
    | ok j => simp [h, hd]
    | error e => cases e; simp [h, hd]
  · rw [State.fetch_out_of_range h]
    simp [h]

/-! ### The step -/

theorem retire_next_iff (o : Host.Outcome State Fault Refusal) (t : State) :
    retire o = .next t ↔ ∃ u, o = .next u ∧ t = u.countStep := by
  cases o <;> simp [retire, eq_comm]

/-- All that a step which answers a next state has done. -/
theorem step_next_iff (s t : State) :
    step s = .next t ↔
      s.fault = none ∧ s.run = .running ∧
        ∃ i u, s.fetchInstr = .ok i ∧ exec i s = .next u ∧ t = u.countStep := by
  unfold step
  cases hf : s.fault with
  | some f => simp
  | none =>
    cases hr : s.run with
    | halted => simp
    | running =>
      cases hi : s.fetchInstr with
      | error f => simp
      | ok i => simp [retire_next_iff]

/-! ### Loading -/

/-- What the store of an image holds at an address from its first word on. -/
theorem lookup_imageCells (image : List Int) (first addr : Nat) :
    Memory.lookup (imageCells first image) addr =
      if first ≤ addr then mod16 (image[addr - first]?.getD 0) else 0 := by
  have h0 : mod16 0 = 0 := by decide
  induction image generalizing first with
  | nil => simp [imageCells, Memory.lookup, h0]
  | cons v vs ih =>
    have hcons : ∀ k, (v :: vs)[k + 1]? = vs[k]? := fun k => rfl
    by_cases hv : mod16 v = 0
    · simp only [imageCells, hv, if_true, ih]
      by_cases h1 : first + 1 ≤ addr
      · have hk : addr - first = (addr - (first + 1)) + 1 := by omega
        rw [if_pos h1, if_pos (by omega), hk, hcons]
      · by_cases h2 : first ≤ addr
        · have hk : addr - first = 0 := by omega
          simp [h1, h2, hk, hv]
        · simp [h1, h2]
    · simp only [imageCells, hv, if_false, Memory.lookup, ih]
      by_cases h0 : addr = first
      · simp [h0]
      · by_cases h1 : first + 1 ≤ addr
        · have hk : addr - first = (addr - (first + 1)) + 1 := by omega
          rw [if_neg h0, if_pos h1, if_pos (by omega), hk, hcons]
        · simp [h0, h1, show ¬ first ≤ addr by omega]

/-- A loaded instance is the reset state with the image's store. -/
theorem load_ok_iff (image : List Int) (s : State) :
    State.load image = .ok s ↔
      imageProblem image = none ∧ s = { State.reset with mem := imageCells 0 image } := by
  unfold State.load
  split
  · rename_i p hp
    simp [hp]
  · rename_i hp
    simp [hp, eq_comm]

/-! ### The run loop -/

theorem runLoop_zero (s : State) :
    runLoop 0 s = .ok (if s.run = .halted then .halted else .budgetExhausted, s) := rfl

theorem runLoop_halted (n : Nat) {s : State} (h : s.run = .halted) :
    runLoop n s = .ok (.halted, s) := by
  cases n <;> simp [runLoop, h]

theorem runLoop_next (n : Nat) {s t : State} (h : step s = .next t) :
    runLoop (n + 1) s = runLoop n t := by
  have hr : s.run = .running := ((step_next_iff s t).1 h).2.1
  simp [runLoop, hr, h]

theorem runLoop_fault (n : Nat) {s : State} {f : Fault} (hr : s.run = .running)
    (h : step s = .fault f) : runLoop (n + 1) s = .ok (.fault f, s.raise f) := by
  simp [runLoop, hr, h]

/-- Every answer of a run call: a refused budget, the recorded fault, or its loop's answer. -/
theorem run_eq (budget : Int) (s : State) :
    run budget s =
      if budget < 1 then .error (.budgetNotPositive budget)
      else s.fault.elim (runLoop budget.toNat s) (fun f => .ok (.fault f, s)) := by
  unfold run
  cases s.fault <;> rfl

/-! ### Several steps -/

theorem core_run_zero (s t : State) : Host.Core.run Sys2Proof.core 0 s = .next t ↔ s = t := by
  show Host.Outcome.next s = .next t ↔ _
  simp

theorem core_run_succ (k : Nat) (s t : State) :
    Host.Core.run Sys2Proof.core (k + 1) s = .next t ↔
      ∃ u, step s = .next u ∧ Host.Core.run Sys2Proof.core k u = .next t := by
  have e : Sys2Proof.core.step s = step s := rfl
  simp only [Host.Core.run, e]
  cases step s <;> simp

end Sys2Proof.Machine
end

