-- ==== Sys2Proof/Tests/Slice0.lean ====
section
/-! SUPPORT. Tests: words written out from the spec's encodings, one-step vectors of
spec/95_test_vectors.md (the id stands in each comment), the WellFormed smoke tests, and a witness
for every statement that has hypotheses. -/

namespace Sys2Proof.Tests

open Sys2Proof.Machine

/-! ### Small states -/

def zeros : RegFile := State.reset.regs

/-- A RUNNING state with the given registers, memory and pc. -/
def at_ (regs : RegFile) (mem : Memory) (pc : Int) : State :=
  { State.reset with regs := regs, mem := mem, pc := pc }

/-- What a step leaves, seen through one field; none if the step stops. -/
def after {α : Type} (s : State) (f : State → α) : Option α :=
  match step s with
  | .next t => some (f t)
  | _ => none

/-! ### WellFormed: an ill-formed term for each check -/

theorem test_wf_refuses_jalr_halt_pattern : (Instr.jalr .r0 .r0 5).wellFormed = false := by decide
theorem test_wf_refuses_lli_zero : (Instr.lli .r3 0).wellFormed = false := by decide

/-! ### Decoding: words written out bit by bit from R72 to R78 -/

theorem test_decode_add : decode 0b0000010101111011 = .ok (.add .r1 .r2 .r3 15) := by decide
theorem test_decode_addi : decode 0b0010010101000000 = .ok (.addi .r1 .r2 64) := by decide
theorem test_decode_nand : decode 0b0100010010000010 = .ok (.nand .r1 .r1 .r2 0) := by decide
theorem test_decode_lui : decode 0b0111111000000000 = .ok (.lui .r7 512) := by decide
theorem test_decode_sw : decode 0b1000010001111111 = .ok (.sw .r1 .r0 127) := by decide
theorem test_decode_lw : decode 0b1011100100000101 = .ok (.lw .r6 .r2 5) := by decide
theorem test_decode_beq : decode 0b1100000001111111 = .ok (.beq .r0 .r0 127) := by decide
theorem test_decode_jalr : decode 0b1110000010000000 = .ok (.jalr .r0 .r1 0) := by decide
theorem test_decode_halt : decode 0b1110000001111111 = .ok (.halt 127) := by decide
/-- The aliases' words decode to the core instruction (R80). -/
theorem test_decode_nop_word : decode 0b0000000001111000 = .ok (.add .r0 .r0 .r0 15) := by decide
theorem test_decode_lli_word : decode 0b0010110110110100 = .ok (.addi .r3 .r3 52) := by decide
theorem test_encode_nop : encode (.nop 0) = 0x0000 := by decide
theorem test_encode_lli : encode (.lli .r3 52) = 0x2DB4 := by decide
theorem test_table_word : decodeTableWord 16 0xEC80 = some (.jalr .r3 .r1 0) := by decide
/-- 95_test_vectors.md section 2: 0x0078, 0x2DB4, 0x2D80, 0x2DC0, 0xE07F, 0xFFFF. -/
theorem test_display :
    display 0x0078 = .ok .nop ∧ display 0x2DB4 = .ok .lli ∧ display 0x2D80 = .ok (.plain .addi) ∧
    display 0x2DC0 = .ok (.plain .addi) ∧ display 0xE07F = .ok .halt ∧
    display 0xFFFF = .ok (.plain .jalr) := by decide
/-- R81. -/
theorem test_assembly : assembly (.addi .r1 .r2 127) = "addi r1, r2, -1" := by decide

/-! ### One step of each instruction -/

/-- A2: 0xFFFF + 1 wraps. -/
theorem test_add_wraps :
    after (at_ { zeros with r2 := 0xFFFF, r3 := 1, r1 := 9 } [(0x10, 0x0503)] 0x10)
      (fun t => (t.readReg .r1, t.pc, t.steps)) = some (0, 0x11, 1) := by decide
/-- A5: the destination is both sources. -/
theorem test_add_same_register :
    after (at_ { zeros with r1 := 0x4001 } [(0x10, 0x0481)] 0x10) (·.readReg .r1)
      = some 0x8002 := by decide
/-- I2: -64 from 0. -/
theorem test_addi_lowest :
    after (at_ zeros [(0x10, 0x2540)] 0x10) (·.readReg .r1) = some 0xFFC0 := by decide
/-- I7: A = B with a negative immediate. -/
theorem test_addi_same_register :
    after (at_ { zeros with r3 := 5 } [(0x10, 0x2DFB)] 0x10) (·.readReg .r3) = some 0 := by decide
/-- N1. -/
theorem test_nand :
    after (at_ { zeros with r2 := 0x0F0F, r3 := 0x00FF } [(0x10, 0x4503)] 0x10) (·.readReg .r1)
      = some 0xFFF0 := by decide
/-- L1 and C1. -/
theorem test_lui_highest :
    after (at_ zeros [(0x10, 0x67FF)] 0x10) (·.readReg .r1) = some 0xFFC0 := by decide
/-- L5: a write to register 0 is discarded. -/
theorem test_lui_r0 :
    after (at_ zeros [(0x10, 0x63FF)] 0x10) (fun t => (t.readReg .r0, t.regs)) = some (0, zeros) := by
  decide
/-- S3: the address wraps below 0. -/
theorem test_sw_wraps :
    after (at_ { zeros with r1 := 0xAAAA } [(0x10, 0x847F)] 0x10) (·.mem)
      = some [(0x10, 0x847F), (0xFFFF, 0xAAAA)] := by decide
/-- S4: storing 0 erases the entry. -/
theorem test_sw_zero_erases :
    after (at_ { zeros with r2 := 0x200 } [(0x10, 0x8100), (0x200, 0x5555)] 0x10) (·.mem)
      = some [(0x10, 0x8100)] := by decide
/-- W3: the base is the destination. -/
theorem test_lw_base_is_destination :
    after (at_ { zeros with r2 := 0x100 } [(0x10, 0xA900), (0x100, 0x42)] 0x10) (·.readReg .r2)
      = some 0x42 := by decide
/-- W6: an instruction reads its own word. -/
theorem test_lw_reads_code :
    after (at_ zeros [(0x10, 0xA410)] 0x10) (·.readReg .r1) = some 0xA410 := by decide
/-- B2, the source's example: not taken at 10. -/
theorem test_beq_not_taken :
    after (at_ { zeros with r1 := 7, r2 := 8 } [(10, 0xC505)] 10) (·.pc) = some 11 := by decide
/-- B6: a taken branch below address 0 leaves a negative pc. -/
theorem test_beq_negative_target : after (at_ zeros [(0, 0xC07E)] 0) (·.pc) = some (-1) := by decide
/-- J1, the source's example. -/
theorem test_jalr_links_and_jumps :
    after (at_ { zeros with r1 := 40 } [(20, 0xEC80)] 20) (fun t => (t.readReg .r3, t.pc))
      = some (21, 40) := by decide
/-- J6: the target is read after the link is written, which wraps. -/
theorem test_jalr_same_register :
    after (at_ { zeros with r3 := 0x123 } [(0xFFFF, 0xED80)] 0xFFFF) (fun t => (t.readReg .r3, t.pc))
      = some (0, 0) := by decide
/-- H2. -/
theorem test_halt :
    after (at_ zeros [(5, 0xE07F)] 5) (fun t => (t.run, t.pc, t.steps)) = some (.halted, 5, 1) := by
  decide
/-- A8: a nop at 0xFFFF leaves 0x10000. -/
theorem test_nop_at_the_top : after (at_ zeros [] 0xFFFF) (·.pc) = some 0x10000 := by decide
/-- I6: 0x1200 + 52 in register 3, as the alias's word runs. -/
theorem test_lli_word :
    after (at_ { zeros with r3 := 0x1200 } [(0x10, 0x2DB4)] 0x10) (·.readReg .r3) = some 0x1234 := by
  decide
/-- The host's placed word is the next instruction. -/
theorem test_withFetchWord :
    after (State.reset.withFetchWord 16 0x67FF) (fun t => (t.readReg .r1, t.pc)) = some (0xFFC0, 1) := by
  decide

/-! ### Run calls (E2, E4, E5, E6) -/

/-- The instance of an image; reset if the image is refused. -/
def loaded (image : List Int) : State :=
  match State.load image with
  | .ok s => s
  | .error _ => State.reset

theorem test_run_halts :
    (run 3 (loaded [0xE000])).map (fun p => (p.1, p.2.pc, p.2.steps)) = .ok (.halted, 0, 1) := by
  decide
theorem test_run_refuses_zero_budget :
    run 0 State.reset = .error (.budgetNotPositive 0) := by decide
theorem test_load_refuses_wide_word :
    State.load [1, 0x10000] = .error (.malformedProgramImage (.wordOutOfRange 1 0x10000)) := by decide
theorem test_run_reports_overflow :
    (run 1 (at_ zeros [] 0x10000)).map Prod.fst = .ok (.fault (.programCounterOverflow 0x10000)) := by
  decide

/-! ### Witnesses: a concrete case that meets all hypotheses of each statement -/

/-- DecodeInvertsEncode. -/
theorem witness_well_formed_no_alias :
    (Instr.jalr .r0 .r1 127).wellFormed = true ∧ (Instr.jalr .r0 .r1 127).isAlias = false := by decide
/-- EncodeInvertsDecode, OperandsAreReadFromTheirBits. -/
theorem witness_decoded_word : decode 0xFFFF = .ok (.jalr .r7 .r7 127) := by decide
/-- RegisterWriteStoresLow16Bits. -/
theorem witness_other_register : Reg.r7 ≠ .r0 := by decide
/-- MemoryReadGivesStoredOrZero, both clauses, at the ends of the address space. -/
theorem witness_memory_read :
    Memory.wf [(0xFFFF, 1)] = true ∧ ((0xFFFF : Word).toNat, (1 : Word)) ∈ [(0xFFFF, (1 : Word))] ∧
      ∀ w : Word, ((0 : Word).toNat, w) ∉ [(0xFFFF, (1 : Word))] :=
  ⟨by decide, by decide, by simp⟩
/-- MemoryWriteStoresOrErases: a value that erases, one that stores, another address, an SW that
changes memory. -/
theorem witness_memory_write :
    (65536 : Int) % 65536 = 0 ∧ (-1 : Int) % 65536 ≠ 0 ∧ (0 : Word) ≠ 0xFFFF ∧
      ∃ t, exec (.sw .r1 .r0 127) (at_ { zeros with r1 := 1 } [] 0) = .next t ∧ t.mem ≠ [] :=
  ⟨by decide, by decide, by decide, _, rfl, by decide⟩
/-- CanonicalMemoriesEqualIfTheyReadEqual. -/
theorem witness_canonical :
    Memory.wf [(0, 1), (0xFFFF, 2)] = true ∧
      ∀ addr, Memory.read [(0, 1), (0xFFFF, 2)] addr = Memory.read [(0, 1), (0xFFFF, 2)] addr :=
  ⟨by decide, fun _ => rfl⟩
/-- LegalImageIsLoaded. -/
theorem witness_legal_image :
    [(0xFFFF : Int), 0].length ≤ 65536 ∧ ∀ v ∈ [(0xFFFF : Int), 0], 0 ≤ v ∧ v ≤ 0xFFFF := by decide
/-- IllegalImageIsRefused: one word too many. -/
theorem witness_long_image : 65536 < (List.replicate 65537 (0 : Int)).length := by
  rw [List.length_replicate]; decide
/-- IllegalImageIsRefused: a word just below and just above the range. -/
theorem witness_bad_words :
    ([(-1 : Int)].length ≤ 65536 ∧ ¬ ∀ v ∈ [(-1 : Int)], 0 ≤ v ∧ v ≤ 0xFFFF) ∧
      [(0x10000 : Int)].length ≤ 65536 ∧ ¬ ∀ v ∈ [(0x10000 : Int)], 0 ≤ v ∧ v ≤ 0xFFFF := by decide
/-- JalrLinksAndJumps: one register 0 is not the halt form. -/
theorem witness_jalr_operands :
    ¬ (Reg.r0 = .r0 ∧ Reg.r1 = .r0) ∧ ¬ (Reg.r1 = .r0 ∧ Reg.r0 = .r0) := by decide
/-- JalrSameRegisterFallsThrough, with its clause at 0xFFFF. -/
theorem witness_jalr_same_register : Reg.r1 ≠ .r0 ∧ (at_ zeros [] 0xFFFF).pc = 0xFFFF := by decide
/-- BeqBranchesOnEquality, both clauses. -/
theorem witness_beq_both_ways :
    (at_ zeros [] 0).readReg .r1 = (at_ zeros [] 0).readReg .r2 ∧
      (at_ { zeros with r1 := 1 } [] 0).readReg .r1 ≠ (at_ { zeros with r1 := 1 } [] 0).readReg .r2 := by
  decide
/-- LliExecutesAsItsAddi: what its word decodes to. -/
theorem witness_lli_decodes : decode (encode (.lli .r3 63)) = .ok (.addi .r3 .r3 63) := by decide
/-- NextPcIsExact: a taken and a not taken BEQ, both kinds of JALR, the halt form, ADD at 0xFFFF. -/
theorem witness_next_pc :
    (∃ t, exec (.beq .r1 .r2 64) (at_ zeros [] 0) = .next t ∧ t.pc = -63) ∧
    (∃ t, exec (.beq .r1 .r2 64) (at_ { zeros with r1 := 1 } [] 0xFFFF) = .next t ∧ t.pc = 0x10000) ∧
    (∃ t, exec (.jalr .r1 .r1 0) (at_ zeros [] 0xFFFF) = .next t ∧ t.pc = 0) ∧
    (∃ t, exec (.jalr .r1 .r2 0) (at_ { zeros with r2 := 9 } [] 0) = .next t ∧ t.pc = 9) ∧
    (∃ t, exec (.jalr .r0 .r0 0) (at_ zeros [] 7) = .next t ∧ t.pc = 7) ∧
    (∃ t, exec (.add .r1 .r2 .r3 0) (at_ zeros [] 0xFFFF) = .next t ∧ t.pc = 0x10000) :=
  ⟨⟨_, rfl, by decide⟩, ⟨_, rfl, by decide⟩, ⟨_, rfl, by decide⟩, ⟨_, rfl, by decide⟩,
    ⟨_, rfl, by decide⟩, ⟨_, rfl, by decide⟩⟩
/-- NextPcIsExact, StepFaultsExactlyOnPcOverflow: RUNNING, no fault, the pc just out of range. -/
theorem witness_pc_out_of_range :
    ((at_ zeros [] (-1)).fault = none ∧ (at_ zeros [] (-1)).run = .running ∧
      (at_ zeros [] (-1)).pc < 0) ∧
    (at_ zeros [] 0x10000).fault = none ∧ (at_ zeros [] 0x10000).run = .running ∧
      0xFFFF < (at_ zeros [] 0x10000).pc := by decide
/-- SourcesAreReadBeforeTheWriteButForJalr: each instruction runs with the destination a source. -/
theorem witness_destination_is_source :
    Reg.r1 ≠ .r0 ∧ ¬ (Reg.r1 = .r0 ∧ Reg.r1 = .r0) ∧
    (∃ t, exec (.add .r1 .r1 .r1 0) State.reset = .next t) ∧
    (∃ t, exec (.addi .r1 .r1 1) State.reset = .next t) ∧
    (∃ t, exec (.nand .r1 .r1 .r1 0) State.reset = .next t) ∧
    (∃ t, exec (.lw .r1 .r1 0) State.reset = .next t) ∧
    (∃ t, exec (.jalr .r1 .r1 0) State.reset = .next t) ∧
    (∃ t, exec (.sw .r1 .r1 0) State.reset = .next t) ∧
    (∃ t, exec (.beq .r1 .r1 0) State.reset = .next t) ∧
    (∃ t t', exec (.lui .r1 1) State.reset = .next t ∧
      exec (.lui .r1 1) (at_ { zeros with r1 := 5 } [] 3) = .next t') :=
  ⟨by decide, by decide, ⟨_, rfl⟩, ⟨_, rfl⟩, ⟨_, rfl⟩, ⟨_, rfl⟩, ⟨_, rfl⟩, ⟨_, rfl⟩, ⟨_, rfl⟩,
    _, _, rfl, rfl⟩
/-- LoadsAndStoresUseBasePlusOffset: the address that wraps below 0; instructions other than SW and
LW; another memory. -/
theorem witness_addressing :
    (0xFFFF : Word).val =
      (((at_ zeros [] 0).readReg .r2).val + (127 : BitVec 7).toInt) % 65536 ∧
    (∀ a b imm7, Instr.nop 0 ≠ .sw a b imm7) ∧ (∀ a b imm7, Instr.nop 0 ≠ .lw a b imm7) ∧
    (∃ t, exec (.nop 0) State.reset = .next t) ∧
    (∃ t, exec (.nop 0) { State.reset with mem := [(3, 4)] } = .next t) :=
  ⟨by decide, by simp, by simp, ⟨_, rfl⟩, ⟨_, rfl⟩⟩
/-- InstructionsUseOnlyTheirRegisters: two different states that agree on ADD's sources. -/
theorem witness_agreeing_states :
    destination (.add .r1 .r2 .r3 0) ≠ some .r4 ∧ destination (.add .r1 .r2 .r3 0) = some .r1 ∧
    (∀ r ∈ sources (.add .r1 .r2 .r3 0),
      (at_ { zeros with r4 := 1 } [] 0).readReg r = State.reset.readReg r) ∧
    (at_ { zeros with r4 := 1 } [] 0).mem = State.reset.mem ∧
    (at_ { zeros with r4 := 1 } [] 0).pc = State.reset.pc ∧
    (∃ t, exec (.add .r1 .r2 .r3 0) (at_ { zeros with r4 := 1 } [] 0) = .next t) ∧
    (∃ t, exec (.add .r1 .r2 .r3 0) State.reset = .next t) :=
  ⟨by decide, by decide, by decide, by decide, by decide, ⟨_, rfl⟩, ⟨_, rfl⟩⟩
/-- ReadyStepsComplete, IgnoredBitsDoNotMatter: both ends of the range a fetch may use. -/
theorem witness_ready : (at_ zeros [] 0).Ready ∧ (at_ zeros [] 0xFFFF).Ready :=
  ⟨⟨rfl, rfl, by decide, by decide⟩, ⟨rfl, rfl, by decide, by decide⟩⟩
/-- StepRunsTheDecodedInstruction. -/
theorem witness_ready_and_decoded :
    (at_ zeros [(7, 0xE000)] 7).Ready ∧
      decode ((at_ zeros [(7, 0xE000)] 7).readMem (at_ zeros [(7, 0xE000)] 7).fetchAddress)
        = .ok (.halt 0) ∧
      ∃ t, exec (.halt 0) (at_ zeros [(7, 0xE000)] 7) = .next t :=
  ⟨⟨rfl, rfl, by decide, by decide⟩, by decide, _, rfl⟩
/-- StoppedInstanceMakesNoStep, both clauses. -/
theorem witness_stopped :
    (State.reset.raise (.programCounterOverflow (-1))).fault = some (.programCounterOverflow (-1)) ∧
      State.reset.halt.fault = none ∧ State.reset.halt.run = .halted := by decide
/-- HaltedOnlyByTheHaltForm: the first and the last halt word, and the words next to them. -/
theorem witness_halt_words :
    (∃ t, step (at_ zeros [(0, 0xE000)] 0) = .next t ∧ t.run = .halted) ∧
    (∃ t, step (at_ zeros [(0, 0xE07F)] 0) = .next t ∧ t.run = .halted) ∧
    (∃ t, step (at_ zeros [(0, 0xDFFF)] 0) = .next t ∧ t.run = .running) ∧
    (∃ t, step (at_ zeros [(0, 0xE080)] 0) = .next t ∧ t.run = .running) :=
  ⟨⟨_, rfl, by decide⟩, ⟨_, rfl, by decide⟩, ⟨_, rfl, by decide⟩, ⟨_, rfl, by decide⟩⟩
/-- PcLeavesTheRangeOnlySo, StepPcStaysWithinBounds: a step to 0x10000, one to -63. -/
theorem witness_pc_leaves_the_range :
    (∃ t, step (at_ zeros [] 0xFFFF) = .next t ∧ 0xFFFF < t.pc) ∧
    (∃ t, step (at_ zeros [(0, 0xC040)] 0) = .next t ∧ t.pc < 0) :=
  ⟨⟨_, rfl, by decide⟩, ⟨_, rfl, by decide⟩⟩
/-- IgnoredBitsDoNotMatter: words of ADD, NAND, JALR and the halt form. -/
theorem witness_ignored_bits :
    ((0x057B : Word) &&& 0xFF87 = (0x0503 : Word) &&& 0xFF87 ∧ (0x057B : Word) &&& 0xE000 = 0x0000) ∧
    ((0x457B : Word) &&& 0xFF87 = (0x4503 : Word) &&& 0xFF87 ∧ (0x457B : Word) &&& 0xE000 = 0x4000) ∧
    ((0xECD5 : Word) &&& 0xFF80 = (0xEC80 : Word) &&& 0xFF80 ∧ (0xECD5 : Word) &&& 0xE000 = 0xE000) ∧
    ((0xE07F : Word) &&& 0xFF80 = (0xE000 : Word) &&& 0xFF80 ∧ (0xE07F : Word) &&& 0xE000 = 0xE000) := by
  decide
/-- A state whose next instruction, `sw r1, r0, 3` at 2, stores the halt word at 3 (P4). -/
def storing : State := at_ { zeros with r1 := 0xE000 } [(2, 0x8403), (3, 0x2C07)] 2
/-- NextFetchSeesTheStore. -/
theorem witness_store_over_next :
    storing.Ready ∧ storing.pc < 0xFFFF ∧
      decode (storing.readMem storing.fetchAddress) = .ok (.sw .r1 .r0 3) ∧
      (effectiveAddress storing .r0 3).val = storing.pc + 1 ∧
      decode (storing.readReg .r1) = .ok (.halt 0) :=
  ⟨⟨rfl, rfl, by decide, by decide⟩, by decide, by decide, by decide, by decide⟩
/-- StepKeepsTheInvariant, RunKeepsTheInvariant: a state of the invariant that steps and runs. -/
theorem witness_invariant :
    storing.Inv ∧ (∃ t, step storing = .next t) ∧ ∃ o t, run 2 storing = .ok (o, t) :=
  ⟨⟨by decide, by decide, by decide, by decide, by decide, fun h => absurd h (by decide),
    fun f h => absurd h (by simp [storing, at_, State.reset])⟩, ⟨_, rfl⟩, _, _, rfl⟩
/-- The invariant also has HALTED and faulted states. -/
theorem witness_invariant_of_stopped_states :
    (at_ zeros [(5, 0xE000)] 5).halt.Inv ∧
      ((at_ zeros [] (-1)).raise (.programCounterOverflow (-1))).Inv :=
  ⟨⟨by decide, by decide, by decide, by decide, by decide, fun _ => ⟨0, by decide⟩,
      fun f h => absurd h (by simp [at_, State.halt, State.reset])⟩,
    ⟨by decide, by decide, by decide, fun h => absurd h (by decide), fun h => absurd h (by decide),
      fun h => absurd h (by decide), fun f h => ⟨by
        simp only [State.raise, Option.some.injEq] at h
        exact h.symm, .inl (by decide)⟩⟩⟩
/-- LoadSatisfiesTheInvariant, ReadsSeeTheLastStore. -/
theorem witness_loaded_run :
    ∃ s t, State.load [0x67FF, 0x8000] = .ok s ∧ Host.Core.run Sys2Proof.core 1 s = .next t ∧
      State.lastStore 0 1 s = none :=
  ⟨_, _, rfl, rfl, by decide⟩
/-- ReadsSeeTheLastStore: a step that stores. -/
theorem witness_last_store :
    (∃ t, Host.Core.run Sys2Proof.core 1 storing = .next t) ∧
      State.lastStore 3 1 storing = some 0xE000 :=
  ⟨⟨_, rfl⟩, by decide⟩
/-- RunCallsResume, StoppedInstanceStaysStopped: a call with each of the three outcomes. -/
theorem witness_run_outcomes :
    (∃ t, run 1 storing = .ok (.budgetExhausted, t)) ∧ (∃ t, run 2 storing = .ok (.halted, t)) ∧
      (∃ t, run 1 (at_ zeros [] (-1)) = .ok (.fault (.programCounterOverflow (-1)), t)) ∧
      RunOutcome.halted ≠ .budgetExhausted :=
  ⟨⟨_, rfl⟩, ⟨_, rfl⟩, ⟨_, rfl⟩, by decide⟩
/-- RunOutcomesAreItsSteps, each outcome; the fault after one step. -/
theorem witness_run_is_its_steps :
    storing.fault = none ∧
      (∃ t, Host.Core.run Sys2Proof.core 1 storing = .next t ∧ t.run = .running) ∧
      (∃ t, Host.Core.run Sys2Proof.core 2 storing = .next t ∧ t.run = .halted) ∧
      (at_ zeros [] 0xFFFF).fault = none ∧
      (∃ u, Host.Core.run Sys2Proof.core 1 (at_ zeros [] 0xFFFF) = .next u ∧ u.run = .running ∧
        step u = .fault (.programCounterOverflow 0x10000)) :=
  ⟨rfl, ⟨_, rfl, by decide⟩, ⟨_, rfl, by decide⟩, rfl, ⟨_, rfl, by decide, rfl⟩⟩
/-- FatalConditionsArePrecise. -/
theorem witness_fatal_run :
    (at_ zeros [] 0xFFFF).fault = none ∧
      ∃ t, run (2 : Nat) (at_ zeros [] 0xFFFF) = .ok (.fault (.programCounterOverflow 0x10000), t) :=
  ⟨rfl, _, rfl⟩
/-- RecordedFaultIsReturnedWithoutAStep, at the least budget. -/
theorem witness_recorded_fault :
    (State.reset.raise (.programCounterOverflow (-1))).fault = some (.programCounterOverflow (-1)) ∧
      (1 : Int) ≤ 1 := by decide
/-- NonPositiveBudgetIsRefused, RunCallsAlwaysAnswer: the budgets on both sides of the bound. -/
theorem witness_budgets : (0 : Int) < 1 ∧ (1 : Int) ≤ 1 := by decide
/-- StepCounterCountsSteps. -/
theorem witness_one_step : ∃ t, Host.Core.run Sys2Proof.core 1 State.reset = .next t := ⟨_, rfl⟩
/-- CallThenReturnComesBack: at the last address a call can return from; the state after the call
still holds the link. -/
theorem witness_call :
    Reg.r7 ≠ .r0 ∧ Reg.r7 ≠ .r5 ∧ 0 ≤ (at_ zeros [] 0xFFFE).pc ∧ (at_ zeros [] 0xFFFE).pc < 0xFFFF ∧
      ∃ t, exec (.jalr .r7 .r5 0) (at_ zeros [] 0xFFFE) = .next t ∧
        (at_ { zeros with r7 := 0xFFFF } [] 9).readReg .r7 = t.readReg .r7 :=
  ⟨by decide, by decide, by decide, by decide, _, rfl, by decide⟩
/-- LuiThenAddiBuildsAnyConstant, NandBuildsSubtraction. -/
theorem witness_distinct_registers : Reg.r1 ≠ .r0 ∧ Reg.r3 ≠ .r0 ∧ Reg.r1 ≠ .r3 := by decide
/-- SelfBranchExhaustsEveryBudget. -/
theorem witness_self_branch :
    (at_ zeros [(4, 0xC07F)] 4).Ready ∧
      (at_ zeros [(4, 0xC07F)] 4).readMem (at_ zeros [(4, 0xC07F)] 4).fetchAddress = 0xC07F :=
  ⟨⟨rfl, rfl, by decide, by decide⟩, by decide⟩

end Sys2Proof.Tests
end

section
/-! Every word is an instruction (R2, R24, R79): the decoder answers on every word, and whatever it
answers is a term of the opcode table's decoder rows. -/

namespace Sys2Proof

/-- The decoder rejects no word, since every value of the opcode field selects an opcode (R79). -/
theorem decode_total (w : Word) : ∃ i, decode w = .ok i := by
  obtain ⟨o, ho⟩ := opcodeOf_isSome (decodeFields w).op
  simp only [decode, ho]
  cases o with
  | jalr => dsimp only; split <;> exact ⟨_, rfl⟩
  | _ => exact ⟨_, rfl⟩

/-- What the decoder answers is well formed and no display alias. Only the JALR row has a condition,
and there the halt-form row is taken first (R77). -/
theorem wellFormed_of_decode {w : Word} {i : Instr} (h : decode w = .ok i) :
    i.wellFormed = true ∧ i.isAlias = false := by
  obtain ⟨o, -, -, hi⟩ := decode_cases h
  cases o with
  | jalr =>
    dsimp only at hi
    split at hi
    next => subst hi; exact ⟨rfl, rfl⟩
    next hab => subst hi; exact ⟨by simpa [Instr.wellFormed] using not_and_or.1 hab, rfl⟩
  | _ => subst hi; exact ⟨rfl, rfl⟩

/-- Settles O1: the decoder answers on every word, and what it answers is well formed and no display
alias. -/
theorem everyWordDecodes : Obligations.EveryWordDecodes := by
  intro w
  obtain ⟨i, hi⟩ := decode_total w
  exact ⟨i, hi, wellFormed_of_decode hi⟩

end Sys2Proof
end

section
/-! What a completed instruction can do, said once, and what follows for registers, memory, pc and
run state (R23, R30, R32, R36, R113). -/

namespace Sys2Proof.Machine

/-- Every instruction completes: no arm raises or refuses (R120). -/
theorem exec_completes (i : Instr) (s : State) : ∃ t, exec i s = .next t := by
  cases i with
  | jalr a b x =>
    by_cases hab : a = .r0 ∧ b = .r0
    · obtain ⟨rfl, rfl⟩ := hab; exact ⟨_, exec_jalr_halt s x⟩
    · exact ⟨_, exec_jalr s a b x hab⟩
  | _ => exact ⟨_, rfl⟩

/-- All that a completed instruction can have done: it wrote its destination and advanced, stored
and advanced, branched, linked and jumped, or halted. -/
theorem exec_next_cases {i : Instr} {s t : State} (h : exec i s = .next t) :
    (∃ a v, destination i = some a ∧ t = s.writeAndAdvance a v) ∨
    (∃ addr v, t = (s.writeMem addr v).advance) ∨
    (∃ a b imm, t = s.setPc (branchTarget s a b imm)) ∨
    (∃ a b, destination i = some a ∧ t = linkAndJump s a b) ∨
    (((∃ x, i = .halt x) ∨ ∃ x, i = .jalr .r0 .r0 x) ∧ t = s.halt) := by
  cases i with
  | sw a b imm => cases h; exact .inr (.inl ⟨_, _, rfl⟩)
  | beq a b imm => cases h; exact .inr (.inr (.inl ⟨a, b, imm, rfl⟩))
  | jalr a b x =>
    by_cases hab : a = .r0 ∧ b = .r0
    · obtain ⟨rfl, rfl⟩ := hab
      cases h
      exact .inr (.inr (.inr (.inr ⟨.inr ⟨x, rfl⟩, rfl⟩)))
    · rw [exec_jalr s a b x hab] at h
      cases h
      exact .inr (.inr (.inr (.inl ⟨a, b, rfl, rfl⟩)))
  | halt x => cases h; exact .inr (.inr (.inr (.inr ⟨.inl ⟨x, rfl⟩, rfl⟩)))
  | _ => cases h; exact .inl ⟨_, _, rfl, rfl⟩

/-! ### Frame -/

/-- No register but the destination changes (R23). -/
theorem exec_readReg_of_ne {i : Instr} {s t : State} (h : exec i s = .next t) {r : Reg}
    (hr : destination i ≠ some r) : t.readReg r = s.readReg r := by
  have ne_of_dest {a : Reg} (ha : destination i = some a) : ¬ (r = a ∧ a ≠ .r0) :=
    fun hra => hr (hra.1 ▸ ha)
  obtain ⟨a, v, ha, rfl⟩ | ⟨addr, v, rfl⟩ | ⟨a, b, imm, rfl⟩ | ⟨a, b, ha, rfl⟩ | ⟨-, rfl⟩ :=
    exec_next_cases h
  · rw [State.readReg_writeAndAdvance, if_neg (ne_of_dest ha)]
  · rw [State.advance_readReg, State.writeMem_readReg]
  · rw [State.setPc_readReg]
  · rw [readReg_linkAndJump, if_neg (ne_of_dest ha)]
  · rw [State.halt_readReg]

/-- No instruction touches the step counter or the fault record. -/
theorem exec_steps_fault {i : Instr} {s t : State} (h : exec i s = .next t) :
    t.steps = s.steps ∧ t.fault = s.fault := by
  obtain ⟨a, v, -, rfl⟩ | ⟨addr, v, rfl⟩ | ⟨a, b, imm, rfl⟩ | ⟨a, b, -, rfl⟩ | ⟨-, rfl⟩ :=
    exec_next_cases h <;> simp

/-- Every instruction keeps the canonical form of the memory. -/
theorem exec_keeps_wf {i : Instr} {s t : State} (h : exec i s = .next t)
    (hm : Memory.wf s.mem = true) : Memory.wf t.mem = true := by
  obtain ⟨a, v, -, rfl⟩ | ⟨addr, v, rfl⟩ | ⟨a, b, imm, rfl⟩ | ⟨a, b, -, rfl⟩ | ⟨-, rfl⟩ :=
    exec_next_cases h
  case inr.inl => exact Memory.wf_write addr v hm
  all_goals exact hm

/-- From RUNNING, only the halt form reaches HALTED, and it changes nothing else (R113). -/
theorem exec_halts {i : Instr} {s t : State} (h : exec i s = .next t) (hs : s.run = .running)
    (ht : t.run = .halted) : ((∃ x, i = .halt x) ∨ ∃ x, i = .jalr .r0 .r0 x) ∧ t = s.halt := by
  obtain ⟨a, v, -, rfl⟩ | ⟨addr, v, rfl⟩ | ⟨a, b, imm, rfl⟩ | ⟨a, b, -, rfl⟩ | hhalt :=
    exec_next_cases h
  case inr.inr.inr.inr => exact hhalt
  all_goals simp [hs] at ht

/-! ### The next pc -/

theorem branchTarget_eq (s : State) (a b : Reg) (imm : BitVec 7) :
    branchTarget s a b imm =
      if s.readReg a = s.readReg b then s.pc + imm.toInt + 1 else s.pc + 1 := by
  simp [branchTarget, branchTaken, sext7_eq_toInt]

/-- A branch from a pc in range stays within 64 of it. -/
theorem branchTarget_bounds (s : State) (a b : Reg) (imm : BitVec 7) :
    s.pc - 63 ≤ branchTarget s a b imm ∧ branchTarget s a b imm ≤ s.pc + 64 := by
  have := sext7_range imm
  unfold branchTarget
  split <;> omega

theorem linkAndJump_pc_range (s : State) (a b : Reg) :
    0 ≤ (linkAndJump s a b).pc ∧ (linkAndJump s a b).pc ≤ 0xFFFF :=
  Word.val_range ((s.writeReg a (s.pc + 1)).readReg b)

/-- From a pc in range an instruction leaves one in -63..0x1003F (R30). -/
theorem exec_pc_bounds {i : Instr} {s t : State} (h : exec i s = .next t) (h0 : 0 ≤ s.pc)
    (h1 : s.pc ≤ 0xFFFF) : -63 ≤ t.pc ∧ t.pc ≤ 0x1003F := by
  obtain ⟨a, v, -, rfl⟩ | ⟨addr, v, rfl⟩ | ⟨a, b, imm, rfl⟩ | ⟨a, b, -, rfl⟩ | ⟨-, rfl⟩ :=
    exec_next_cases h
  · rw [State.writeAndAdvance_pc]; omega
  · rw [State.advance_pc, State.writeMem_pc]; omega
  · have := branchTarget_bounds s a b imm
    rw [State.setPc_pc]; omega
  · have := linkAndJump_pc_range s a b
    omega
  · rw [State.halt_pc]; omega

/-- The pc a JALR leaves, other than the halt form: its own link or the target register. -/
theorem linkAndJump_pc_eq (s : State) {a b : Reg} (hab : ¬ (a = .r0 ∧ b = .r0)) :
    (linkAndJump s a b).pc = if b = a then (s.pc + 1) % 65536 else (s.readReg b).val := by
  rw [linkAndJump_pc]
  by_cases hba : b = a
  · subst hba
    have hb : b ≠ .r0 := fun hb => hab ⟨hb, hb⟩
    rw [if_pos ⟨rfl, hb⟩, if_pos rfl]
    exact mod16_toNat (s.pc + 1)
  · rw [if_neg (fun hc => hba hc.1), if_neg hba]

/-! ### Results depend on the sources only -/

section
variable {s s' : State} {a b c : Reg}

theorem sumRegs_congr (hb : s.readReg b = s'.readReg b) (hc : s.readReg c = s'.readReg c) :
    sumRegs s b c = sumRegs s' b c := by
  simp only [sumRegs, State.regVal, hb, hc]

theorem sumImm_congr (imm : BitVec 7) (hb : s.readReg b = s'.readReg b) :
    sumImm s b imm = sumImm s' b imm := by
  simp only [sumImm, State.regVal, hb]

theorem nandRegs_congr (hb : s.readReg b = s'.readReg b) (hc : s.readReg c = s'.readReg c) :
    nandRegs s b c = nandRegs s' b c := by
  simp only [nandRegs, hb, hc]

theorem effectiveAddress_congr (imm : BitVec 7) (hb : s.readReg b = s'.readReg b) :
    effectiveAddress s b imm = effectiveAddress s' b imm := by
  simp only [effectiveAddress, sumImm_congr imm hb]

theorem branchTarget_congr (imm : BitVec 7) (ha : s.readReg a = s'.readReg a)
    (hb : s.readReg b = s'.readReg b) (hpc : s.pc = s'.pc) :
    branchTarget s a b imm = branchTarget s' a b imm := by
  simp only [branchTarget_eq, ha, hb, hpc]

/-- What a write leaves in its own register depends on the value alone, also for register 0. -/
theorem RegFile.read_write_self (f g : RegFile) (a : Reg) (v : Int) :
    (f.write a v).read a = (g.write a v).read a := by
  rw [RegFile.read_write, RegFile.read_write]
  by_cases ha : a = .r0
  · subst ha; rfl
  · rw [if_pos ⟨rfl, ha⟩, if_pos ⟨rfl, ha⟩]

/-- Agreement of two next states on pc, memory and the destination of `i`. -/
def AgreeAfter (i : Instr) (t t' : State) : Prop :=
  t.pc = t'.pc ∧ t.mem = t'.mem ∧ ∀ r, destination i = some r → t.readReg r = t'.readReg r

theorem AgreeAfter.writeAndAdvance {i : Instr} {v v' : Int} (hi : destination i = some a)
    (hv : v = v') (hmem : s.mem = s'.mem) (hpc : s.pc = s'.pc) :
    AgreeAfter i (s.writeAndAdvance a v) (s'.writeAndAdvance a v') := by
  subst hv
  refine ⟨by simp [hpc], hmem, fun r hr => ?_⟩
  obtain rfl : a = r := Option.some.inj (hi.symm.trans hr)
  exact RegFile.read_write_self s.regs s'.regs a v

theorem AgreeAfter.linkAndJump (x : BitVec 7) (hab : ¬ (a = .r0 ∧ b = .r0))
    (hb : s.readReg b = s'.readReg b) (hmem : s.mem = s'.mem) (hpc : s.pc = s'.pc) :
    AgreeAfter (.jalr a b x) (linkAndJump s a b) (linkAndJump s' a b) := by
  refine ⟨?_, hmem, fun r hr => ?_⟩
  · rw [linkAndJump_pc_eq s hab, linkAndJump_pc_eq s' hab, hb, hpc]
  · obtain rfl : a = r := Option.some.inj hr
    show (s.regs.write a (s.pc + 1)).read a = (s'.regs.write a (s'.pc + 1)).read a
    rw [hpc]
    exact RegFile.read_write_self s.regs s'.regs a (s'.pc + 1)

end

/-- Two states that agree on an instruction's sources, the memory and the pc agree after it on its
destination, the memory and the pc (R23). -/
theorem exec_agrees {i : Instr} {s s' t t' : State} (h : exec i s = .next t)
    (h' : exec i s' = .next t') (hsrc : ∀ r ∈ sources i, s.readReg r = s'.readReg r)
    (hmem : s.mem = s'.mem) (hpc : s.pc = s'.pc) : AgreeAfter i t t' := by
  cases i with
  | add a b c x =>
    cases h; cases h'
    exact .writeAndAdvance rfl
      (sumRegs_congr (hsrc b (by simp [sources])) (hsrc c (by simp [sources]))) hmem hpc
  | addi a b imm =>
    cases h; cases h'
    exact .writeAndAdvance rfl (sumImm_congr imm (hsrc b (by simp [sources]))) hmem hpc
  | nand a b c x =>
    cases h; cases h'
    exact .writeAndAdvance rfl
      (nandRegs_congr (hsrc b (by simp [sources])) (hsrc c (by simp [sources]))) hmem hpc
  | lui a imm =>
    cases h; cases h'
    exact .writeAndAdvance rfl rfl hmem hpc
  | sw a b imm =>
    cases h; cases h'
    have ha := hsrc a (by simp [sources])
    have haddr := effectiveAddress_congr imm (hsrc b (by simp [sources]))
    refine ⟨by simp [hpc], ?_, fun r hr => by cases hr⟩
    simp only [State.advance_mem, State.writeMem_mem, State.regVal, haddr, ha, hmem]
  | lw a b imm =>
    cases h; cases h'
    have haddr := effectiveAddress_congr imm (hsrc b (by simp [sources]))
    exact .writeAndAdvance rfl (by simp only [State.readMem, haddr, hmem]) hmem hpc
  | beq a b imm =>
    cases h; cases h'
    exact ⟨branchTarget_congr imm (hsrc a (by simp [sources])) (hsrc b (by simp [sources])) hpc,
      hmem, fun r hr => by cases hr⟩
  | jalr a b x =>
    by_cases hab : a = .r0 ∧ b = .r0
    · obtain ⟨rfl, rfl⟩ := hab
      cases h; cases h'
      exact ⟨hpc, hmem, fun r hr => by cases hr; rfl⟩
    · rw [exec_jalr _ a b x hab] at h h'
      cases h; cases h'
      exact .linkAndJump x hab (hsrc b (by simp [sources])) hmem hpc
  | halt x =>
    cases h; cases h'
    exact ⟨hpc, hmem, fun r hr => by cases hr⟩
  | nop x =>
    cases h; cases h'
    exact .writeAndAdvance rfl rfl hmem hpc
  | lli a imm =>
    cases h; cases h'
    exact .writeAndAdvance rfl (sumImm_congr (lliImm7 imm) (hsrc a (by simp [sources]))) hmem hpc

/-- Settles O33: the frame of every instruction, and that its effect is a function of its sources,
the memory and the pc. -/
theorem instructionsUseOnlyTheirRegisters : Obligations.InstructionsUseOnlyTheirRegisters :=
  ⟨fun _ _ _ h _ hr => exec_readReg_of_ne h hr,
    fun _ _ _ _ _ h h' hsrc hmem hpc => exec_agrees h h' hsrc hmem hpc⟩

end Sys2Proof.Machine
end

section
/-! What a step answers: from a Ready state the decoded instruction's next state, counted; otherwise
the recorded fault, the refusal of a HALTED state, or the overflow of the pc (R33, R121, R126). -/

namespace Sys2Proof.Machine

/-- A step of a Ready state is its decoded instruction, retired. -/
theorem step_of_ready {s : State} {i : Instr} (hs : s.Ready)
    (hi : decode (s.readMem s.fetchAddress) = .ok i) : step s = retire (exec i s) := by
  obtain ⟨hf, hr, h0, h1⟩ := hs
  have hfetch := (State.fetchInstr_ok_iff s i).2 ⟨⟨h0, h1⟩, hi⟩
  simp only [step, hf, hr, hfetch]

/-- A step that answers a next state started from a Ready state and ran its instruction. -/
theorem step_next_inv {s t : State} (h : step s = .next t) :
    s.Ready ∧ ∃ i u, decode (s.readMem s.fetchAddress) = .ok i ∧ exec i s = .next u ∧
      t = u.countStep := by
  obtain ⟨hf, hr, i, u, hi, hu, ht⟩ := (step_next_iff s t).1 h
  obtain ⟨⟨h0, h1⟩, hd⟩ := (State.fetchInstr_ok_iff s i).1 hi
  exact ⟨⟨hf, hr, h0, h1⟩, i, u, hd, hu, ht⟩

/-- Every step from a Ready state completes. -/
theorem step_completes {s : State} (hs : s.Ready) : ∃ t, step s = .next t := by
  obtain ⟨i, hi⟩ := decode_total (s.readMem s.fetchAddress)
  obtain ⟨u, hu⟩ := exec_completes i s
  exact ⟨u.countStep, by rw [step_of_ready hs hi, hu]; rfl⟩

theorem step_of_fault {s : State} {f : Fault} (hf : s.fault = some f) : step s = .fault f := by
  simp only [step, hf]

theorem step_of_halted {s : State} (hf : s.fault = none) (hr : s.run = .halted) :
    step s = .refused .halted := by
  simp only [step, hf, hr]

/-- A pc out of range is caught before the fetch (R121). -/
theorem step_of_pc_out_of_range {s : State} (hf : s.fault = none) (hr : s.run = .running)
    (hpc : s.pc < 0 ∨ 0xFFFF < s.pc) : step s = .fault (.programCounterOverflow s.pc) := by
  have hfetch : s.fetch = .error (.programCounterOverflow s.pc) :=
    State.fetch_out_of_range (by omega)
  simp only [step, hf, hr, State.fetchInstr, hfetch]

/-- A RUNNING state without a fault either completes its step or overflows its pc. -/
theorem step_of_running {s : State} (hf : s.fault = none) (hr : s.run = .running) :
    (∃ t, step s = .next t) ∨
      ((s.pc < 0 ∨ 0xFFFF < s.pc) ∧ step s = .fault (.programCounterOverflow s.pc)) := by
  by_cases hpc : s.pc < 0 ∨ 0xFFFF < s.pc
  · exact .inr ⟨hpc, step_of_pc_out_of_range hf hr hpc⟩
  · exact .inl (step_completes ⟨hf, hr, by omega, by omega⟩)

/-- The one fault a step of a RUNNING state can raise (R121, R122). -/
theorem step_fault_inv {s : State} {f : Fault} (hf : s.fault = none) (hr : s.run = .running)
    (h : step s = .fault f) : (s.pc < 0 ∨ 0xFFFF < s.pc) ∧ f = .programCounterOverflow s.pc := by
  obtain ⟨t, ht⟩ | ⟨hpc, hov⟩ := step_of_running hf hr
  · rw [ht] at h; cases h
  · rw [hov] at h; cases h; exact ⟨hpc, rfl⟩

/-- A completed step counts one and records no fault. -/
theorem step_steps_fault {s t : State} (h : step s = .next t) :
    t.steps = s.steps + 1 ∧ t.fault = none := by
  obtain ⟨hs, i, u, -, hu, rfl⟩ := step_next_inv h
  obtain ⟨hsteps, hfault⟩ := exec_steps_fault hu
  exact ⟨by rw [State.countStep_steps, hsteps], by rw [State.countStep_fault, hfault, hs.noFault]⟩

/-! ### Reaching HALTED -/

/-- The words of the halt-form row (R78, R113). -/
theorem decode_halt_iff (w : Word) :
    (∃ x, decode w = .ok (.halt x)) ↔ 0xE000 ≤ w.toNat ∧ w.toNat ≤ 0xE07F := by
  have hfa := decodeFields_a w
  have hfb := decodeFields_b w
  constructor
  · rintro ⟨x, hx⟩
    obtain ⟨o, -, hop, hi⟩ := decode_cases hx
    cases o with
    | jalr =>
      dsimp only at hi
      split at hi
      next hab =>
        rw [hab.1] at hfa
        rw [hab.2] at hfb
        simp only [Reg.index, opcodeNumber_jalr] at hfa hfb hop
        omega
      next => cases hi
    | _ => cases hi
  · rintro ⟨hlo, hhi⟩
    obtain ⟨i, hd⟩ := decode_total w
    obtain ⟨o, -, hop, hi⟩ := decode_cases hd
    have ha : (decodeFields w).a = .r0 :=
      Reg.index_inj.1 (hfa.trans (by simp only [Reg.index]; omega))
    have hb : (decodeFields w).b = .r0 :=
      Reg.index_inj.1 (hfb.trans (by simp only [Reg.index]; omega))
    have h7 : opcodeNumber o = 7 := by omega
    cases o with
    | jalr =>
      dsimp only at hi
      rw [if_pos ⟨ha, hb⟩] at hi
      exact ⟨_, hi ▸ hd⟩
    | _ => simp at h7

/-- A step that reaches HALTED ran the halt-form row and changed nothing else but the count. -/
theorem step_halts {s t : State} (h : step s = .next t) (ht : t.run = .halted) :
    (∃ x, decode (s.readMem s.fetchAddress) = .ok (.halt x)) ∧ t = s.halt.countStep := by
  obtain ⟨hs, i, u, hi, hu, rfl⟩ := step_next_inv h
  obtain ⟨⟨x, rfl⟩ | ⟨x, rfl⟩, rfl⟩ := exec_halts hu hs.running ht
  · exact ⟨⟨x, hi⟩, rfl⟩
  · exact absurd (wellFormed_of_decode hi).1 (by simp [Instr.wellFormed])

/-- A step reaches HALTED exactly on a halt word. -/
theorem step_halted_iff {s t : State} (h : step s = .next t) :
    t.run = .halted ↔ ∃ x, decode (s.readMem s.fetchAddress) = .ok (.halt x) := by
  refine ⟨fun ht => (step_halts h ht).1, fun ⟨x, hx⟩ => ?_⟩
  rw [step_of_ready (step_next_inv h).1 hx] at h
  cases h
  rfl

/-! ### The statements about one step -/

/-- Settles O35: a Ready state's word decodes to an instruction, which completes. -/
theorem readyStepsComplete : Obligations.ReadyStepsComplete := by
  intro s hs
  obtain ⟨t, ht⟩ := step_completes hs
  exact ⟨t, ht, step_steps_fault ht⟩

/-- Settles O38: the halt-form row's words are 0xE000..0xE07F, and its next state differs in the run
state and the count only. -/
theorem haltedOnlyByTheHaltForm : Obligations.HaltedOnlyByTheHaltForm := by
  intro s t h
  refine ⟨(step_halted_iff h).trans (decode_halt_iff _), fun ht => ?_⟩
  obtain ⟨-, rfl⟩ := step_halts h ht
  exact ⟨rfl, rfl, rfl⟩

/-- Settles O40, by the pc each kind of instruction leaves. -/
theorem stepPcStaysWithinBounds : Obligations.StepPcStaysWithinBounds := by
  intro s t h
  obtain ⟨hs, i, u, -, hu, rfl⟩ := step_next_inv h
  have hbounds := exec_pc_bounds hu hs.pcLow hs.pcHigh
  exact ⟨hs.pcLow, hs.pcHigh, hbounds⟩

/-- Settles O30: the table of R32 per instruction, and the range check of R33. -/
theorem nextPcIsExact : Obligations.NextPcIsExact := by
  refine ⟨fun i s t h => ?_, fun s hf hr hpc => step_of_pc_out_of_range hf hr hpc⟩
  cases i with
  | beq a b imm => cases h; exact branchTarget_eq s a b imm
  | jalr a b x =>
    dsimp only
    by_cases hab : a = .r0 ∧ b = .r0
    · rw [if_pos hab]
      obtain ⟨rfl, rfl⟩ := hab
      cases h
      rfl
    · rw [exec_jalr s a b x hab] at h
      cases h
      rw [if_neg hab, linkAndJump_pc_eq s hab]
  | _ => cases h; rfl

/-- Settles O34: a Ready state's step is its instruction, retired. -/
theorem stepRunsTheDecodedInstruction : Obligations.StepRunsTheDecodedInstruction := by
  intro s i hs hi
  rw [step_of_ready hs hi]
  exact ⟨fun t ht => by rw [ht]; rfl, fun f hf => by rw [hf]; rfl, fun r hr => by rw [hr]; rfl⟩

/-- Settles O37: the recorded fault and HALTED are looked at before anything else. -/
theorem stoppedInstanceMakesNoStep : Obligations.StoppedInstanceMakesNoStep :=
  fun _ => ⟨fun _ hf => step_of_fault hf, fun hf hr => step_of_halted hf hr⟩

/-! ### The invariant -/

/-- A halted state reads at its pc what it read before: the halt form moves neither. -/
theorem halt_countStep_fetchWord (s : State) :
    s.halt.countStep.readMem s.halt.countStep.fetchAddress = s.readMem s.fetchAddress := rfl

/-- Settles O43: the step started Ready, so it records no fault; its instruction keeps the memory
canonical and the pc within bounds; and if it halts, the halt word still stands at the pc. -/
theorem stepKeepsTheInvariant : Obligations.StepKeepsTheInvariant := by
  intro s t hinv h
  obtain ⟨hs, i, u, -, hu, htu⟩ := step_next_inv h
  have hfault : t.fault = none := (step_steps_fault h).2
  have hbounds := exec_pc_bounds hu hs.pcLow hs.pcHigh
  constructor
  case memCanonical =>
    rw [htu, State.countStep_mem]
    exact exec_keeps_wf hu hinv.memCanonical
  case pcLow => rw [htu]; exact hbounds.1
  case pcHigh => rw [htu]; exact hbounds.2
  case haltedNoFault => exact fun _ => hfault
  case haltedInRange =>
    intro ht
    obtain ⟨-, rfl⟩ := step_halts h ht
    exact ⟨hs.pcLow, hs.pcHigh⟩
  case haltedAtHaltWord =>
    intro ht
    obtain ⟨hword, rfl⟩ := step_halts h ht
    rw [halt_countStep_fetchWord]
    exact hword
  case faultIsOverflow =>
    intro f hf
    rw [hfault] at hf
    cases hf

/-- Recording the fault that a step raises keeps the invariant (R124). -/
theorem State.Inv.raise {s : State} {f : Fault} (hinv : s.Inv) (hf : s.fault = none)
    (hr : s.run = .running) (h : step s = .fault f) : (s.raise f).Inv := by
  have not_halted : (s.raise f).run ≠ .halted := by simp [hr]
  obtain ⟨hpc, rfl⟩ := step_fault_inv hf hr h
  constructor
  case memCanonical => exact hinv.memCanonical
  case pcLow => exact hinv.pcLow
  case pcHigh => exact hinv.pcHigh
  case haltedNoFault => exact fun ht => absurd ht not_halted
  case haltedInRange => exact fun ht => absurd ht not_halted
  case haltedAtHaltWord => exact fun ht => absurd ht not_halted
  case faultIsOverflow =>
    intro g hg
    rw [State.raise_fault] at hg
    cases hg
    exact ⟨rfl, hpc⟩

end Sys2Proof.Machine
end

section
/-! Registers and reset (R21, R22, R39). -/

namespace Sys2Proof.Machine

/-- Settles O10: each row of the register file's read. -/
theorem registerReadGivesStoredOrZero : Obligations.RegisterReadGivesStoredOrZero :=
  fun s => ⟨State.readReg_r0 s, rfl, rfl, rfl, rfl, rfl, rfl, rfl⟩

/-- Settles O11, by what a register read sees after a write. -/
theorem registerWriteStoresLow16Bits : Obligations.RegisterWriteStoresLow16Bits := by
  intro s v
  refine ⟨rfl, fun i hi => ⟨?_, fun r hr => ?_, rfl, rfl, rfl, rfl, rfl⟩⟩
  · rw [State.readReg_writeReg, if_pos ⟨rfl, hi⟩]
    exact mod16_toNat v
  · rw [State.readReg_writeReg, if_neg (fun h => hr h.1)]

theorem reset_readReg (r : Reg) : State.reset.readReg r = 0 := by
  cases r <;> rfl

theorem reset_readMem (addr : Word) : State.reset.readMem addr = 0 := rfl

/-- Settles O17: the empty image has nothing wrong and no cell. -/
theorem resetStateIsTheEmptyLoad : Obligations.ResetStateIsTheEmptyLoad :=
  ⟨(load_ok_iff [] State.reset).2 ⟨rfl, rfl⟩, reset_readReg, reset_readMem, rfl, rfl, rfl, rfl⟩

/-- Settles O44: reset is RUNNING at pc 0 with an empty memory and no fault. -/
theorem resetSatisfiesTheInvariant : Obligations.ResetSatisfiesTheInvariant := by
  have not_halted : State.reset.run ≠ .halted := by decide
  constructor
  case memCanonical => exact wf_reset_mem
  case pcLow => decide
  case pcHigh => decide
  case haltedNoFault => exact fun h => absurd h not_halted
  case haltedInRange => exact fun h => absurd h not_halted
  case haltedAtHaltWord => exact fun h => absurd h not_halted
  case faultIsOverflow => intro f hf; cases hf

end Sys2Proof.Machine
end

section
/-! Runs as sequences of steps (R40 to R43, R124). The run loop's answer is characterised once, by
`runLoop_ok_iff`; the statements about run calls follow from it. -/

namespace Sys2Proof.Machine

/-! ### Several steps -/

/-- What every step keeps, any number of steps keeps. -/
theorem core_run_keeps {P : State → Prop} (hP : ∀ s t, P s → step s = .next t → P t) {k : Nat}
    {s t : State} (hs : P s) (h : Host.Core.run Sys2Proof.core k s = .next t) : P t := by
  induction k generalizing s with
  | zero => exact (core_run_zero s t).1 h ▸ hs
  | succ k ih =>
    obtain ⟨u, hu, ht⟩ := (core_run_succ k s t).1 h
    exact ih (hP s u hs hu) ht

theorem core_run_noFault {k : Nat} {s t : State} (hs : s.fault = none)
    (h : Host.Core.run Sys2Proof.core k s = .next t) : t.fault = none :=
  core_run_keeps (P := fun s => s.fault = none) (fun _ _ _ h => (step_steps_fault h).2) hs h

/-- Settles O55, by induction on the number of steps. -/
theorem stepCounterCountsSteps : Obligations.StepCounterCountsSteps := by
  intro k
  induction k with
  | zero =>
    intro s t h
    rw [(core_run_zero s t).1 h, Nat.add_zero]
  | succ k ih =>
    intro s t h
    obtain ⟨u, hu, ht⟩ := (core_run_succ k s t).1 h
    have hcount := (step_steps_fault hu).1
    have hrest := ih u t ht
    omega

/-! ### The run loop -/

/-- How a run call with `n` steps left, on a state without a fault, ends: by its budget, at the first
HALTED state, or at the first state whose step faults. -/
def RunEnds (n : Nat) (s : State) : RunOutcome → State → Prop
  | .budgetExhausted, t => Host.Core.run Sys2Proof.core n s = .next t ∧ t.run = .running
  | .halted, t => ∃ k, k ≤ n ∧ Host.Core.run Sys2Proof.core k s = .next t ∧ t.run = .halted
  | .fault f, t => ∃ (k : Nat) (u : State), k < n ∧ Host.Core.run Sys2Proof.core k s = .next u ∧
      u.run = .running ∧ step u = .fault f ∧ t = u.raise f

/-- After `k` completed steps the loop goes on with `k` fewer. -/
theorem runLoop_add {k : Nat} (n : Nat) {s t : State}
    (h : Host.Core.run Sys2Proof.core k s = .next t) : runLoop (k + n) s = runLoop n t := by
  induction k generalizing s with
  | zero => rw [(core_run_zero s t).1 h, Nat.zero_add]
  | succ k ih =>
    obtain ⟨u, hu, ht⟩ := (core_run_succ k s t).1 h
    rw [Nat.succ_add, runLoop_next (k + n) hu, ih ht]

/-- The loop gives the answer that its steps lead to. -/
theorem runLoop_of_runEnds {n : Nat} {s t : State} {o : RunOutcome} (h : RunEnds n s o t) :
    runLoop n s = .ok (o, t) := by
  cases o with
  | budgetExhausted =>
    obtain ⟨hrun, ht⟩ := h
    rw [← Nat.add_zero n, runLoop_add 0 hrun, runLoop_zero, ht]
    rfl
  | halted =>
    obtain ⟨k, hk, hrun, ht⟩ := h
    obtain ⟨m, rfl⟩ := Nat.exists_eq_add_of_le hk
    rw [runLoop_add m hrun, runLoop_halted m ht]
  | fault f =>
    obtain ⟨k, u, hk, hrun, hu, hf, rfl⟩ := h
    obtain ⟨m, rfl⟩ := Nat.exists_eq_add_of_lt hk
    rw [Nat.add_assoc, runLoop_add (m + 1) hrun, runLoop_fault m hu hf]

/-- A completed step before a run is one more step of it. -/
theorem RunEnds.cons {n : Nat} {s u t : State} {o : RunOutcome} (hu : step s = .next u)
    (h : RunEnds n u o t) : RunEnds (n + 1) s o t := by
  have hrun {k : Nat} {v : State} (hv : Host.Core.run Sys2Proof.core k u = .next v) :
      Host.Core.run Sys2Proof.core (k + 1) s = .next v := (core_run_succ k s v).2 ⟨u, hu, hv⟩
  cases o with
  | budgetExhausted => exact ⟨hrun h.1, h.2⟩
  | halted =>
    obtain ⟨k, hk, hv, ht⟩ := h
    exact ⟨k + 1, Nat.succ_le_succ hk, hrun hv, ht⟩
  | fault f =>
    obtain ⟨k, v, hk, hv, hrest⟩ := h
    exact ⟨k + 1, v, Nat.succ_lt_succ hk, hrun hv, hrest⟩

/-- A larger budget does not change an end that the budget did not cause. -/
theorem RunEnds.mono {m n : Nat} {s t : State} {o : RunOutcome} (hmn : m ≤ n)
    (ho : o ≠ .budgetExhausted) (h : RunEnds m s o t) : RunEnds n s o t := by
  cases o with
  | budgetExhausted => exact absurd rfl ho
  | halted =>
    obtain ⟨k, hk, hrest⟩ := h
    exact ⟨k, hk.trans hmn, hrest⟩
  | fault f =>
    obtain ⟨k, u, hk, hrest⟩ := h
    exact ⟨k, u, hk.trans_le hmn, hrest⟩

/-- From a state without a fault every budget leads to an end, since a step of a RUNNING state
completes or faults. -/
theorem exists_runEnds (n : Nat) {s : State} (hf : s.fault = none) : ∃ o t, RunEnds n s o t := by
  induction n generalizing s with
  | zero =>
    have hrun := (core_run_zero s s).2 rfl
    cases hr : s.run with
    | running => exact ⟨.budgetExhausted, s, hrun, hr⟩
    | halted => exact ⟨.halted, s, 0, le_rfl, hrun, hr⟩
  | succ n ih =>
    have hrun := (core_run_zero s s).2 rfl
    cases hr : s.run with
    | halted => exact ⟨.halted, s, 0, Nat.zero_le _, hrun, hr⟩
    | running =>
      obtain ⟨u, hu⟩ | ⟨-, hstep⟩ := step_of_running hf hr
      · obtain ⟨o, t, ht⟩ := ih (step_steps_fault hu).2
        exact ⟨o, t, ht.cons hu⟩
      · exact ⟨.fault _, _, 0, s, Nat.succ_pos n, hrun, hr, hstep, rfl⟩

/-- The run loop's answer, in terms of steps. The loop gives one answer only, and every run has an
end: so the end its steps lead to is the answer. -/
theorem runLoop_ok_iff (n : Nat) {s : State} (hf : s.fault = none) (o : RunOutcome) (t : State) :
    runLoop n s = .ok (o, t) ↔ RunEnds n s o t := by
  refine ⟨fun h => ?_, runLoop_of_runEnds⟩
  obtain ⟨o', t', hends⟩ := exists_runEnds n hf
  have heq := h.symm.trans (runLoop_of_runEnds hends)
  cases heq
  exact hends

/-! ### The run call -/

theorem run_of_fault {budget : Int} {s : State} {f : Fault} (hb : 1 ≤ budget)
    (hf : s.fault = some f) : run budget s = .ok (.fault f, s) := by
  rw [run_eq, if_neg (by omega), hf]
  rfl

theorem run_of_noFault {budget : Int} {s : State} (hb : 1 ≤ budget) (hf : s.fault = none) :
    run budget s = runLoop budget.toNat s := by
  rw [run_eq, if_neg (by omega), hf]
  rfl

/-- Every answer of a run call: the fault recorded before it, or the end its steps lead to. -/
theorem run_ok_cases {budget : Int} {s t : State} {o : RunOutcome} (hb : 1 ≤ budget)
    (h : run budget s = .ok (o, t)) :
    (∃ f, s.fault = some f ∧ o = .fault f ∧ t = s) ∨
      (s.fault = none ∧ RunEnds budget.toNat s o t) := by
  cases hf : s.fault with
  | some f =>
    rw [run_of_fault hb hf] at h
    cases h
    exact .inl ⟨f, rfl, rfl, rfl⟩
  | none =>
    rw [run_of_noFault hb hf] at h
    exact .inr ⟨rfl, (runLoop_ok_iff _ hf o t).1 h⟩

/-- A refused budget gives no state, so an answer had a budget of at least 1. -/
theorem one_le_of_run_ok {budget : Int} {s t : State} {o : RunOutcome}
    (h : run budget s = .ok (o, t)) : 1 ≤ budget := by
  by_contra hb
  rw [run_eq, if_pos (by omega)] at h
  cases h

/-- Settles O51: the record is looked at before the loop. -/
theorem recordedFaultIsReturnedWithoutAStep : Obligations.RecordedFaultIsReturnedWithoutAStep :=
  fun _ _ _ hf hb => run_of_fault hb hf

/-- Settles O52: the budget is looked at first. -/
theorem nonPositiveBudgetIsRefused : Obligations.NonPositiveBudgetIsRefused := by
  intro budget s hb
  rw [run_eq, if_pos hb]

/-- Settles O49: the three cases of the run loop's characterisation. -/
theorem runOutcomesAreItsSteps : Obligations.RunOutcomesAreItsSteps := by
  intro n s t hn hf
  have hrun : run n s = runLoop n s := run_of_noFault (by omega) hf
  rw [hrun]
  exact ⟨runLoop_ok_iff n hf .budgetExhausted t, runLoop_ok_iff n hf .halted t,
    fun f => runLoop_ok_iff n hf (.fault f) t⟩

/-- Settles O53: a recorded fault is returned, and otherwise every run has an end. -/
theorem runCallsAlwaysAnswer : Obligations.RunCallsAlwaysAnswer := by
  intro budget s hb
  cases hf : s.fault with
  | some f => exact ⟨_, _, run_of_fault hb hf⟩
  | none =>
    obtain ⟨o, t, hends⟩ := exists_runEnds budget.toNat hf
    exact ⟨o, t, (run_of_noFault hb hf).trans (runLoop_of_runEnds hends)⟩

/-- Settles O48: an exhausted budget left the state after its steps, from which the loop goes on; any
other end stands under a larger budget. -/
theorem runCallsResume : Obligations.RunCallsResume := by
  intro m n s t o hm hn h
  have hmn : (1 : Int) ≤ m + n := by omega
  obtain ⟨f, hf, rfl, rfl⟩ | ⟨hf, hends⟩ := run_ok_cases hm h
  · exact ⟨RunOutcome.noConfusion, fun _ => run_of_fault hmn hf⟩
  · have hsum : (m + n).toNat = m.toNat + n.toNat := Int.toNat_add (by omega) (by omega)
    rw [run_of_noFault hmn hf, hsum]
    constructor
    · rintro rfl
      obtain ⟨hrun, -⟩ := hends
      rw [runLoop_add n.toNat hrun, run_of_noFault hn (core_run_noFault hf hrun)]
    · intro ho
      exact runLoop_of_runEnds (hends.mono (Nat.le_add_right _ _) ho)

/-- Settles O54: the state left is HALTED, or has the fault recorded. -/
theorem stoppedInstanceStaysStopped : Obligations.StoppedInstanceStaysStopped := by
  intro m n s t o hm hn h ho
  obtain ⟨f, hf, rfl, rfl⟩ | ⟨hf, hends⟩ := run_ok_cases hm h
  · exact run_of_fault hn hf
  · cases o with
    | budgetExhausted => exact absurd rfl ho
    | halted =>
      obtain ⟨k, -, hrun, ht⟩ := hends
      rw [run_of_noFault hn (core_run_noFault hf hrun), runLoop_halted _ ht]
    | fault f =>
      obtain ⟨k, u, -, -, -, -, rfl⟩ := hends
      exact run_of_fault hn (State.raise_fault u f)

/-- Settles O46: the steps of the call keep the invariant, and so does recording the fault that ends
it. -/
theorem runKeepsTheInvariant : Obligations.RunKeepsTheInvariant := by
  intro budget s t o hinv h
  obtain ⟨f, -, -, rfl⟩ | ⟨hf, hends⟩ := run_ok_cases (one_le_of_run_ok h) h
  · exact hinv
  · cases o with
    | budgetExhausted => exact core_run_keeps stepKeepsTheInvariant hinv hends.1
    | halted =>
      obtain ⟨k, -, hrun, -⟩ := hends
      exact core_run_keeps stepKeepsTheInvariant hinv hrun
    | fault f =>
      obtain ⟨k, u, -, hrun, hu, hstep, rfl⟩ := hends
      have huinv : u.Inv := core_run_keeps stepKeepsTheInvariant hinv hrun
      exact huinv.raise (core_run_noFault hf hrun) hu hstep

end Sys2Proof.Machine
end

section
/-! The sparse store as a function of addresses (R51 to R54): an entry's word is what a read of its
address gives, a write changes one word, and a canonical store holds nothing but its reads. -/

namespace Sys2Proof.Machine

/-! ### Membership and reads -/

/-- What the canonical form says of one entry. -/
theorem Memory.wfFrom_mem {m : Memory} {low : Nat} (hm : Memory.wfFrom low m = true) :
    ∀ e ∈ m, low ≤ e.1 ∧ e.1 < 65536 ∧ e.2 ≠ 0 := by
  induction m generalizing low with
  | nil => simp
  | cons e m ih =>
    obtain ⟨b, w⟩ := e
    obtain ⟨hb, ht, hw, hm⟩ := Memory.wfFrom_cons.1 hm
    intro x hx
    obtain rfl | hx := List.mem_cons.1 hx
    · exact ⟨hb, ht, hw⟩
    · obtain ⟨hlow, hrest⟩ := ih hm x hx
      exact ⟨by omega, hrest⟩

/-- The addresses of a canonical store strictly rise. -/
theorem Memory.wfFrom_pairwise {m : Memory} {low : Nat} (hm : Memory.wfFrom low m = true) :
    m.Pairwise (fun e e' => e.1 < e'.1) := by
  induction m generalizing low with
  | nil => exact .nil
  | cons e m ih =>
    obtain ⟨b, w⟩ := e
    obtain ⟨-, -, -, hm⟩ := Memory.wfFrom_cons.1 hm
    exact .cons (fun x hx => (Memory.wfFrom_mem hm x hx).1) (ih hm)

/-- In any store an address without an entry reads 0. -/
theorem Memory.lookup_of_not_mem {m : Memory} {a : Nat} (h : ∀ w, (a, w) ∉ m) :
    Memory.lookup m a = 0 := by
  induction m with
  | nil => rfl
  | cons e m ih =>
    obtain ⟨b, w⟩ := e
    have hab : a ≠ b := fun hab => h w (hab ▸ List.mem_cons_self)
    simp only [Memory.lookup, if_neg hab]
    exact ih (fun w hw => h w (List.mem_cons_of_mem _ hw))

/-- An entry of a canonical store is the only one for its address, so it is what a read finds. -/
theorem Memory.lookup_of_mem {m : Memory} {low a : Nat} {w : Word}
    (hm : Memory.wfFrom low m = true) (h : (a, w) ∈ m) : Memory.lookup m a = w := by
  induction m generalizing low with
  | nil => cases h
  | cons e m ih =>
    obtain ⟨b, u⟩ := e
    obtain ⟨-, -, -, hm⟩ := Memory.wfFrom_cons.1 hm
    obtain heq | h := List.mem_cons.1 h
    · obtain ⟨rfl, rfl⟩ := Prod.mk.inj heq
      simp only [Memory.lookup, if_true]
    · have hab : b < a := (Memory.wfFrom_mem hm _ h).1
      simp only [Memory.lookup, if_neg hab.ne']
      exact ih hm h

/-- The entries of a canonical store are its nonzero reads. -/
theorem Memory.mem_iff_lookup {m : Memory} (hm : Memory.wf m = true) (a : Nat) (w : Word) :
    (a, w) ∈ m ↔ a < 65536 ∧ w ≠ 0 ∧ Memory.lookup m a = w := by
  constructor
  · intro h
    obtain ⟨-, ha, hw⟩ := Memory.wfFrom_mem hm _ h
    exact ⟨ha, hw, Memory.lookup_of_mem hm h⟩
  · rintro ⟨-, hw, rfl⟩
    by_contra habsent
    refine hw (Memory.lookup_of_not_mem fun u hu => habsent ?_)
    rwa [Memory.lookup_of_mem hm hu]

/-- A read looks up an address below 65,536. -/
theorem Memory.lookup_eq_read (m : Memory) {a : Nat} (ha : a < 65536) :
    Memory.lookup m a = Memory.read m (BitVec.ofNat 16 a) := by
  rw [Memory.read, BitVec.toNat_ofNat, Nat.mod_eq_of_lt ha]

/-- Settles O12: the canonical form is needed only for an entry to be the one a read finds. -/
theorem memoryReadGivesStoredOrZero : Obligations.MemoryReadGivesStoredOrZero :=
  fun _ _ hm => ⟨fun _ hw => Memory.lookup_of_mem hm hw, Memory.lookup_of_not_mem⟩

/-- Settles O14: equal reads give equal entries, and a list with strictly rising addresses is
determined by its entries. -/
theorem canonicalMemoriesEqualIfTheyReadEqual :
    Obligations.CanonicalMemoriesEqualIfTheyReadEqual := by
  intro m m' hm hm' hread
  have hmem : ∀ e, e ∈ m ↔ e ∈ m' := by
    rintro ⟨a, w⟩
    rw [Memory.mem_iff_lookup hm, Memory.mem_iff_lookup hm']
    refine and_congr_right fun ha => ?_
    rw [Memory.lookup_eq_read m ha, Memory.lookup_eq_read m' ha, hread]
  have hasymm : Std.Asymm (fun e e' : Nat × Word => e.1 < e'.1) := ⟨fun _ _ => Nat.lt_asymm⟩
  exact (Memory.wfFrom_pairwise hm).eq_of_mem_iff (Memory.wfFrom_pairwise hm') hmem

/-! ### Writes -/

theorem Memory.mem_insert (m : Memory) (a : Nat) (v : Word) (e : Nat × Word) :
    e ∈ Memory.insert m a v ↔ e = (a, v) ∨ e ∈ m := by
  induction m with
  | nil => simp [Memory.insert]
  | cons x m ih =>
    obtain ⟨b, w⟩ := x
    by_cases hab : a < b
    · simp only [Memory.insert, if_pos hab, List.mem_cons]
    · simp only [Memory.insert, if_neg hab, List.mem_cons, ih]
      exact or_left_comm

/-- A word is the reduction of `v` when its value is `v` modulo 65,536. -/
theorem eq_mod16_iff (w : Word) (v : Int) : w = mod16 v ↔ w.val = v % 65536 := by
  rw [← mod16_toNat, Word.val, Int.natCast_inj, BitVec.toNat_inj]

theorem mod16_eq_zero_iff (v : Int) : mod16 v = 0 ↔ v % 65536 = 0 := by
  rw [eq_comm, eq_mod16_iff]
  exact eq_comm

/-- The entries a write leaves at its own address, in every store, canonical or not: none if the
masked value is 0, else that value (R53). -/
theorem Memory.mem_write_self (m : Memory) (addr w : Word) (v : Int) :
    (addr.toNat, w) ∈ Memory.write m addr v ↔ mod16 v ≠ 0 ∧ w = mod16 v := by
  have herased : (addr.toNat, w) ∉ Memory.erase m addr.toNat :=
    fun h => Memory.erase_ne m addr.toNat _ h rfl
  unfold Memory.write
  by_cases hv : mod16 v = 0
  · rw [if_pos hv]
    exact iff_of_false herased (fun h => h.1 hv)
  · rw [if_neg hv, Memory.mem_insert, or_iff_left herased, and_iff_right hv, Prod.mk.injEq,
      and_iff_right rfl]

/-- No instruction but SW changes the memory (R53). -/
theorem exec_mem_of_not_sw {i : Instr} {s t : State} (h : exec i s = .next t)
    (hi : ∀ a b imm, i ≠ .sw a b imm) : t.mem = s.mem := by
  cases i with
  | sw a b imm => exact absurd rfl (hi a b imm)
  | jalr a b x =>
    by_cases hab : a = .r0 ∧ b = .r0
    · obtain ⟨rfl, rfl⟩ := hab
      cases h
      rfl
    · rw [exec_jalr s a b x hab] at h
      cases h
      rfl
  | _ => cases h; rfl

/-- Settles O13, by what a read and the list itself show of a write, and by the frame of every
instruction but SW. -/
theorem memoryWriteStoresOrErases : Obligations.MemoryWriteStoresOrErases := by
  refine ⟨fun m addr v => ⟨?_, fun other hne => ?_, fun hv w => ?_, fun hv w => ?_⟩,
    fun i s t h hmem => ?_⟩
  · rw [Memory.read_write, if_pos rfl]
    exact mod16_toNat v
  · rw [Memory.read_write, if_neg hne]
  · rw [Memory.mem_write_self]
    exact fun hw => hw.1 ((mod16_eq_zero_iff v).2 hv)
  · rw [Memory.mem_write_self, eq_mod16_iff]
    exact and_iff_right (fun h0 => hv ((mod16_eq_zero_iff v).1 h0))
  · by_contra hnone
    exact hmem (exec_mem_of_not_sw h fun a b imm hi => hnone ⟨a, b, imm, hi⟩)

end Sys2Proof.Machine
end

section
/-! Loading an image (R56, R123, R140): which images are refused, with which report, and the state a
legal one leaves. -/

namespace Sys2Proof.Machine

/-! ### The check of an image -/

/-- The words of an image are all in 0..0xFFFF exactly when no bad word is found. -/
theorem firstBadWord_eq_none_iff (image : List Int) (first : Nat) :
    firstBadWord first image = none ↔ ∀ v ∈ image, 0 ≤ v ∧ v ≤ 0xFFFF := by
  induction image generalizing first with
  | nil => simp [firstBadWord]
  | cons v vs ih =>
    by_cases hv : 0 ≤ v ∧ v ≤ 0xFFFF
    · rw [firstBadWord, if_pos hv, ih, List.forall_mem_cons, and_iff_right hv]
    · rw [firstBadWord, if_neg hv, List.forall_mem_cons]
      exact iff_of_false (Option.some_ne_none _) (fun h => hv h.1)

/-- A bad word that is found is a word of the image out of range, reported with its address. -/
theorem firstBadWord_eq_some {image : List Int} {first : Nat} {p : ImageProblem}
    (h : firstBadWord first image = some p) :
    ∃ (k : Nat) (v : Int), image[k]? = some v ∧ (v < 0 ∨ 0xFFFF < v) ∧
      p = .wordOutOfRange (first + k) v := by
  induction image generalizing first with
  | nil => cases h
  | cons v vs ih =>
    by_cases hv : 0 ≤ v ∧ v ≤ 0xFFFF
    · simp only [firstBadWord, if_pos hv] at h
      obtain ⟨k, u, hk, hu, rfl⟩ := ih h
      exact ⟨k + 1, u, hk, hu, by rw [Nat.add_right_comm, Nat.add_assoc]⟩
    · simp only [firstBadWord, if_neg hv, Option.some.injEq] at h
      exact ⟨0, v, rfl, by omega, h.symm⟩

theorem imageProblem_of_too_long {image : List Int} (h : 65536 < image.length) :
    imageProblem image = some (.tooManyWords image.length) :=
  if_pos h

theorem imageProblem_of_length_le {image : List Int} (h : image.length ≤ 65536) :
    imageProblem image = firstBadWord 0 image :=
  if_neg (Nat.not_lt.2 h)

/-- The legal images: at most 65,536 words, all in 0..0xFFFF (R56). -/
theorem imageProblem_eq_none_iff (image : List Int) :
    imageProblem image = none ↔ image.length ≤ 65536 ∧ ∀ v ∈ image, 0 ≤ v ∧ v ≤ 0xFFFF := by
  by_cases hlen : image.length ≤ 65536
  · rw [imageProblem_of_length_le hlen, firstBadWord_eq_none_iff, and_iff_right hlen]
  · simp [imageProblem_of_too_long (Nat.lt_of_not_le hlen), hlen]

/-- What is wrong with an image is what its load reports (R123). -/
theorem load_of_imageProblem {image : List Int} {p : ImageProblem}
    (h : imageProblem image = some p) :
    State.load image = .error (.malformedProgramImage p) := by
  simp only [State.load, h]

/-- Settles O16: the report is the first bad word's, which is a word of the image. -/
theorem illegalImageIsRefused : Obligations.IllegalImageIsRefused := by
  refine fun image => ⟨fun hlong => load_of_imageProblem (imageProblem_of_too_long hlong),
    fun hlen hbad => ?_⟩
  cases hp : firstBadWord 0 image with
  | none => exact absurd ((firstBadWord_eq_none_iff image 0).1 hp) hbad
  | some p =>
    obtain ⟨k, v, hk, hv, rfl⟩ := firstBadWord_eq_some hp
    rw [Nat.zero_add] at hp
    exact ⟨k, v, hk, hv, load_of_imageProblem ((imageProblem_of_length_le hlen).trans hp)⟩

/-! ### The loaded state -/

/-- An address of a loaded state reads the image's word, or 0 past its end (R56). -/
theorem load_readMem {image : List Int} {s : State} (h : State.load image = .ok s) (addr : Word) :
    (s.readMem addr).val = (image[addr.toNat]?).getD 0 := by
  obtain ⟨hlegal, rfl⟩ := (load_ok_iff image s).1 h
  obtain ⟨-, hwords⟩ := (imageProblem_eq_none_iff image).1 hlegal
  have hread : Memory.read (imageCells 0 image) addr = mod16 (image[addr.toNat]?.getD 0) := by
    rw [Memory.read, lookup_imageCells, if_pos (Nat.zero_le _), Nat.sub_zero]
  have hrange : 0 ≤ image[addr.toNat]?.getD 0 ∧ image[addr.toNat]?.getD 0 ≤ 0xFFFF := by
    cases hv : image[addr.toNat]? with
    | none => decide
    | some v => exact hwords v (List.mem_of_getElem? hv)
  exact (congrArg Word.val hread).trans (mod16_val_of_range hrange.1 hrange.2)

/-- A Ready state with a canonical memory satisfies the invariant: what the invariant says of HALTED
and of faulted states does not concern it. -/
theorem State.Ready.inv {s : State} (hs : s.Ready) (hm : Memory.wf s.mem = true) : s.Inv := by
  obtain ⟨hf, hr, h0, h1⟩ := hs
  have not_halted : s.run ≠ .halted := by simp [hr]
  constructor
  case memCanonical => exact hm
  case pcLow => omega
  case pcHigh => omega
  case haltedNoFault => exact fun _ => hf
  case haltedInRange => exact fun h => absurd h not_halted
  case haltedAtHaltWord => exact fun h => absurd h not_halted
  case faultIsOverflow =>
    intro f h
    rw [hf] at h
    cases h

/-- From a loaded state the first step completes. -/
theorem load_ready {image : List Int} {s : State} (h : State.load image = .ok s) : s.Ready := by
  obtain ⟨-, rfl⟩ := (load_ok_iff image s).1 h
  exact ⟨rfl, rfl, le_rfl, (by decide : (0 : Int) ≤ 0xFFFF)⟩

/-- Settles O15: nothing is wrong with a legal image, so it is loaded into the reset state. -/
theorem legalImageIsLoaded : Obligations.LegalImageIsLoaded := by
  intro image hlen hwords
  have hload := (load_ok_iff image _).2 ⟨(imageProblem_eq_none_iff image).2 ⟨hlen, hwords⟩, rfl⟩
  exact ⟨_, hload, load_readMem hload, reset_readReg, rfl, rfl, rfl, rfl⟩

/-- Settles O45: a loaded state is Ready, and an image's store is canonical. -/
theorem loadSatisfiesTheInvariant : Obligations.LoadSatisfiesTheInvariant :=
  fun _ _ h => (load_ready h).inv (wf_load_mem h)

end Sys2Proof.Machine
end

section
/-! Stores seen by later reads (R63, R65, R143): by the next fetch, and after any number of steps. -/

namespace Sys2Proof.Machine

/-! ### The step of an SW -/

/-- The next state of a step that executes an SW. -/
theorem step_sw {s : State} {a b : Reg} {imm : BitVec 7} (hs : s.Ready)
    (hi : decode (s.readMem s.fetchAddress) = .ok (.sw a b imm)) :
    step s =
      .next (s.writeMem (effectiveAddress s b imm) (s.readReg a).val).advance.countStep := by
  rw [step_of_ready hs hi]
  rfl

/-- Settles O42: the SW leaves its own effective address as the next fetch address, so the word
fetched is the word stored. -/
theorem nextFetchSeesTheStore : Obligations.NextFetchSeesTheStore := by
  intro s a b imm j hs hpc hi haddr hj
  have hstep := step_sw hs hi
  generalize ht : (s.writeMem (effectiveAddress s b imm) (s.readReg a).val).advance.countStep = t
    at hstep
  have htpc : t.pc = s.pc + 1 := by rw [← ht]; rfl
  have hready : t.Ready := by
    have h0 := hs.pcLow
    refine ⟨(step_steps_fault hstep).2, ?_, by omega, by omega⟩
    rw [← ht]
    exact hs.running
  have hfetchAddress : t.fetchAddress = effectiveAddress s b imm := by
    rw [State.fetchAddress, htpc, ← haddr, mod16_val]
  have hword : t.readMem t.fetchAddress = s.readReg a := by
    rw [hfetchAddress, ← ht, State.countStep_readMem, State.advance_readMem,
      State.readMem_writeMem, if_pos rfl, mod16_val]
  exact ⟨t, hstep, hready, hword, step_of_ready hready (by rw [hword]; exact hj)⟩

/-! ### The last store to an address -/

/-- The word the next step stores to `addr`, if it stores there. -/
def State.nextStoreTo (s : State) (addr : Word) : Option Word :=
  s.nextStore.bind fun st => if st.1 = addr then some st.2 else none

/-- The last of `n + 1` steps to store to an address is the last of the later `n`, if one of them
does, else the first. -/
theorem lastStore_succ {s t : State} (h : step s = .next t) (addr : Word) (n : Nat) :
    State.lastStore addr (n + 1) s = (State.lastStore addr n t).or (s.nextStoreTo addr) := by
  simp only [State.lastStore, h, State.nextStoreTo]
  cases State.lastStore addr n t <;> cases s.nextStore <;> rfl

theorem nextStoreTo_of_sw {s : State} {a b : Reg} {imm : BitVec 7}
    (h : s.fetchInstr = .ok (.sw a b imm)) (addr : Word) :
    s.nextStoreTo addr =
      if effectiveAddress s b imm = addr then some (s.readReg a) else none := by
  simp only [State.nextStoreTo, State.nextStore, h]
  rfl

theorem nextStoreTo_of_not_sw {s : State} {i : Instr} (h : s.fetchInstr = .ok i)
    (hi : ∀ a b imm, i ≠ .sw a b imm) (addr : Word) : s.nextStoreTo addr = none := by
  have hnone : s.nextStore = none := by
    unfold State.nextStore
    split
    next a b imm hsw => exact absurd (Except.ok.inj (h.symm.trans hsw)) (hi a b imm)
    next => rfl
  rw [State.nextStoreTo, hnone]
  rfl

/-- After one step an address reads what the step stored to it, or what it read before. -/
theorem step_readMem {s t : State} (h : step s = .next t) (addr : Word) :
    t.readMem addr = (s.nextStoreTo addr).getD (s.readMem addr) := by
  obtain ⟨-, -, i, u, hi, hu, rfl⟩ := (step_next_iff s t).1 h
  rw [State.countStep_readMem]
  by_cases hsw : ∃ a b imm, i = .sw a b imm
  · obtain ⟨a, b, imm, rfl⟩ := hsw
    cases hu
    rw [nextStoreTo_of_sw hi, State.advance_readMem, State.readMem_writeMem, State.regVal,
      mod16_val]
    by_cases haddr : effectiveAddress s b imm = addr
    · rw [if_pos haddr, if_pos haddr.symm, Option.getD_some]
    · rw [if_neg haddr, if_neg (Ne.symm haddr), Option.getD_none]
  · have hi' : ∀ a b imm, i ≠ .sw a b imm := fun a b imm h => hsw ⟨a, b, imm, h⟩
    rw [nextStoreTo_of_not_sw hi hi', Option.getD_none]
    exact congrArg (Memory.read · addr) (exec_mem_of_not_sw hu hi')

/-- After any number of steps an address reads the last word stored to it, by induction on the
number of steps. -/
theorem core_run_readMem {k : Nat} {s t : State} (h : Host.Core.run Sys2Proof.core k s = .next t)
    (addr : Word) : t.readMem addr = (State.lastStore addr k s).getD (s.readMem addr) := by
  induction k generalizing s with
  | zero =>
    rw [(core_run_zero s t).1 h]
    rfl
  | succ k ih =>
    obtain ⟨u, hu, ht⟩ := (core_run_succ k s t).1 h
    rw [ih ht, step_readMem hu, lastStore_succ hu, Option.getD_or]

/-- Settles O47: the law for any state, and for a loaded one what its image put there. -/
theorem readsSeeTheLastStore : Obligations.ReadsSeeTheLastStore := by
  refine ⟨fun k s t addr h => core_run_readMem h addr, fun image s t k addr hload hrun hnone => ?_⟩
  rw [core_run_readMem hrun, hnone, Option.getD_none, load_readMem hload]

end Sys2Proof.Machine
end

section
/-! The decoder row by row (R70 to R78): a word decodes to the instruction of the row its opcode
selects, built from its fields, and the encoder packs those fields back. -/

namespace Sys2Proof

/-! ### The instruction of a row -/

/-- The instruction of an opcode's row with the fields of a word, the halt-form row before the JALR
row (R77). -/
def Opcode.instrOf (o : Opcode) (f : Fields) : Instr :=
  match o with
  | .add => .add f.a f.b f.c f.unused
  | .addi => .addi f.a f.b f.imm7
  | .nand => .nand f.a f.b f.c f.unused
  | .lui => .lui f.a f.imm10
  | .sw => .sw f.a f.b f.imm7
  | .lw => .lw f.a f.b f.imm7
  | .beq => .beq f.a f.b f.imm7
  | .jalr => if f.a = .r0 ∧ f.b = .r0 then .halt f.imm7 else .jalr f.a f.b f.imm7

/-- The opcode whose number an instruction's word carries. -/
def Instr.opcode : Instr → Opcode
  | .add _ _ _ _ | .nop _ => .add
  | .addi _ _ _ | .lli _ _ => .addi
  | .nand _ _ _ _ => .nand
  | .lui _ _ => .lui
  | .sw _ _ _ => .sw
  | .lw _ _ _ => .lw
  | .beq _ _ _ => .beq
  | .jalr _ _ _ | .halt _ => .jalr

@[simp] theorem opcode_instrOf (o : Opcode) (f : Fields) : (o.instrOf f).opcode = o := by
  cases o with
  | jalr => simp only [Opcode.instrOf]; split <;> rfl
  | _ => rfl

theorem instrOf_jalr_of_ne {f : Fields} (h : ¬ (f.a = .r0 ∧ f.b = .r0)) :
    Opcode.jalr.instrOf f = .jalr f.a f.b f.imm7 := if_neg h

theorem opcodeNumber_inj {o o' : Opcode} : opcodeNumber o = opcodeNumber o' ↔ o = o' := by
  cases o <;> cases o' <;> decide

theorem decode_of_opcodeOf {w : Word} {o : Opcode} (h : opcodeOf (decodeFields w).op = some o) :
    decode w = .ok (o.instrOf (decodeFields w)) := by
  simp only [decode, h]
  cases o with
  | jalr => simp only [Opcode.instrOf]; split <;> rfl
  | _ => rfl

/-- A word decodes to the row its top three bits number (R77). -/
theorem decode_of_opcodeNumber {w : Word} {o : Opcode} (h : w.toNat / 8192 = opcodeNumber o) :
    decode w = .ok (o.instrOf (decodeFields w)) := by
  apply decode_of_opcodeOf
  rw [← opcodeOf_opcodeNumber o]
  congr 1
  apply BitVec.eq_of_toNat_eq
  have := opcodeNumber_lt o
  rw [decodeFields_op, BitVec.toNat_ofNat, h]
  omega

/-- All that the decoder's answer says: the word carries the answer's opcode number, and the answer
is that row's instruction. -/
theorem decode_eq_ok_iff {w : Word} {i : Instr} :
    decode w = .ok i ↔
      w.toNat / 8192 = opcodeNumber i.opcode ∧ i = i.opcode.instrOf (decodeFields w) := by
  constructor
  · intro h
    obtain ⟨o, ho, hn, -⟩ := decode_cases h
    obtain rfl : o.instrOf (decodeFields w) = i :=
      Except.ok.inj ((decode_of_opcodeOf ho).symm.trans h)
    rw [opcode_instrOf]
    exact ⟨hn, rfl⟩
  · rintro ⟨hn, hi⟩
    rw [hi]
    exact decode_of_opcodeNumber hn

/-- Every word has a row, and decodes to its instruction. -/
theorem exists_decode_row (w : Word) :
    ∃ o, w.toNat / 8192 = opcodeNumber o ∧ decode w = .ok (o.instrOf (decodeFields w)) := by
  obtain ⟨i, hi⟩ := decode_total w
  obtain ⟨hn, -⟩ := decode_eq_ok_iff.1 hi
  exact ⟨i.opcode, hn, decode_of_opcodeNumber hn⟩

/-! ### Decoding a packed word -/

/-- A packed word of shape RRR decodes to its row with the fields packed, the other fields being
whatever the word's bits make them. -/
theorem decode_packRRR (o : Opcode) (a b c : Reg) (x : BitVec 4) :
    ∃ f : Fields, decode (packAB o a b (x.toNat * 8 + c.index)) =
      .ok (o.instrOf { f with a := a, b := b, c := c, unused := x }) := by
  obtain ⟨ho, ha, hb, hc, hx⟩ := decodeFields_packRRR o a b c x
  have hdecode := decode_of_opcodeOf ho
  generalize decodeFields (packAB o a b (x.toNat * 8 + c.index)) = f at *
  exact ⟨f, hdecode.trans (by rw [← ha, ← hb, ← hc, ← hx])⟩

/-- The same for shape RRI. -/
theorem decode_packRRI (o : Opcode) (a b : Reg) (imm : BitVec 7) :
    ∃ f : Fields, decode (packAB o a b imm.toNat) =
      .ok (o.instrOf { f with a := a, b := b, imm7 := imm }) := by
  obtain ⟨ho, ha, hb, hi⟩ := decodeFields_packRRI o a b imm
  have hdecode := decode_of_opcodeOf ho
  generalize decodeFields (packAB o a b imm.toNat) = f at *
  exact ⟨f, hdecode.trans (by rw [← ha, ← hb, ← hi])⟩

/-- The one row of shape RI. -/
theorem decode_encode_lui (a : Reg) (imm : BitVec 10) :
    decode (encode (.lui a imm)) = .ok (.lui a imm) := by
  have hw := encode_lui_toNat a imm
  have := a.index_lt
  have := imm.isLt
  refine decode_eq_ok_iff.2 ⟨?_, ?_⟩
  · rw [hw]
    simp only [Instr.opcode, opcodeNumber_lui]
    omega
  · have ha : a = (decodeFields (encode (.lui a imm))).a := by
      apply Reg.index_inj.1
      rw [decodeFields_a, hw]
      omega
    have himm : imm = (decodeFields (encode (.lui a imm))).imm10 := by
      apply BitVec.eq_of_toNat_eq
      rw [decodeFields_imm10, hw]
      omega
    exact congrArg₂ Instr.lui ha himm

/-- Settles O2, shape by shape: the fields packed are the fields read back, and a well-formed JALR is
not taken for the halt form. -/
theorem decodeInvertsEncode : Obligations.DecodeInvertsEncode := by
  intro i hwf halias
  cases i with
  | add a b c x => obtain ⟨f, hf⟩ := decode_packRRR .add a b c x; exact hf
  | nand a b c x => obtain ⟨f, hf⟩ := decode_packRRR .nand a b c x; exact hf
  | lui a imm => exact decode_encode_lui a imm
  | addi a b imm => obtain ⟨f, hf⟩ := decode_packRRI .addi a b imm; exact hf
  | sw a b imm => obtain ⟨f, hf⟩ := decode_packRRI .sw a b imm; exact hf
  | lw a b imm => obtain ⟨f, hf⟩ := decode_packRRI .lw a b imm; exact hf
  | beq a b imm => obtain ⟨f, hf⟩ := decode_packRRI .beq a b imm; exact hf
  | jalr a b x =>
    obtain ⟨f, hf⟩ := decode_packRRI .jalr a b x
    have hab : ¬ (a = .r0 ∧ b = .r0) := by simpa [Instr.wellFormed, imp_iff_not_or] using hwf
    exact hf.trans (congrArg Except.ok (instrOf_jalr_of_ne hab))
  | halt x => obtain ⟨f, hf⟩ := decode_packRRI .jalr .r0 .r0 x; exact hf
  | nop x => cases halias
  | lli a imm => cases halias

/-! ### Encoding a word's fields -/

/-- A word is its opcode number, its fields A and B and its seven low bits, packed. -/
theorem packAB_decodeFields {w : Word} {o : Opcode} {low : Nat}
    (ho : w.toNat / 8192 = opcodeNumber o) (hlow : low = w.toNat % 128) :
    packAB o (decodeFields w).a (decodeFields w).b low = w := by
  apply BitVec.eq_of_toNat_eq
  rw [packAB_toNat o _ _ (by omega), decodeFields_a, decodeFields_b, ← ho, hlow]
  omega

/-- Bits 6..3 and the field C are the seven low bits of shape RRR (R72). -/
theorem decodeFields_low (w : Word) :
    (decodeFields w).unused.toNat * 8 + (decodeFields w).c.index = w.toNat % 128 := by
  rw [decodeFields_unused, decodeFields_c]
  omega

/-- Encoding a row's instruction with a word's fields gives back the word, if it is of that row. -/
theorem encode_instrOf {w : Word} {o : Opcode} (ho : w.toNat / 8192 = opcodeNumber o) :
    encode (o.instrOf (decodeFields w)) = w := by
  have himm := decodeFields_imm7 w
  cases o with
  | add | nand => exact packAB_decodeFields ho (decodeFields_low w)
  | addi | sw | lw | beq => exact packAB_decodeFields ho himm
  | lui =>
    apply BitVec.eq_of_toNat_eq
    rw [Opcode.instrOf, encode_lui_toNat, decodeFields_a, decodeFields_imm10]
    rw [opcodeNumber_lui] at ho
    omega
  | jalr =>
    have hpack := packAB_decodeFields ho himm
    simp only [Opcode.instrOf]
    split
    next hab => rw [hab.1, hab.2] at hpack; exact hpack
    next => exact hpack

/-- Settles O3: what a word decodes to is its row's instruction with its fields. -/
theorem encodeInvertsDecode : Obligations.EncodeInvertsDecode := by
  intro w i h
  obtain ⟨ho, hi⟩ := decode_eq_ok_iff.1 h
  rw [hi]
  exact encode_instrOf ho

/-! ### The aliases' words -/

open Machine (lliImm7)

theorem lliImm7_toNat (imm6 : BitVec 6) : (lliImm7 imm6).toNat = imm6.toNat := by
  have := imm6.isLt
  rw [lliImm7, BitVec.toNat_ofNat]
  omega

/-- The immediate of lli is added as it stands: six bits are never read as negative. -/
theorem sext7_lliImm7 (imm6 : BitVec 6) : sext7 (lliImm7 imm6) = (imm6.toNat : Int) := by
  have := imm6.isLt
  rw [sext7, lliImm7_toNat, if_neg (by omega)]

/-- The word of lli is that of the ADDI it names. -/
theorem encode_lli (a : Reg) (imm6 : BitVec 6) :
    encode (.lli a imm6) = encode (.addi a a (lliImm7 imm6)) := by
  simp only [encode, lliImm7_toNat]

theorem decode_encode_lli (a : Reg) (imm6 : BitVec 6) :
    decode (encode (.lli a imm6)) = .ok (.addi a a (lliImm7 imm6)) := by
  rw [encode_lli]
  exact decodeInvertsEncode (.addi a a (lliImm7 imm6)) rfl rfl

/-- Settles O4: the aliases' words are those of the ADD and the ADDI they name, which decode back. -/
theorem aliasWordsDecodeToCore : Obligations.AliasWordsDecodeToCore :=
  ⟨fun x => decodeInvertsEncode (.add .r0 .r0 .r0 x) rfl rfl,
    fun a imm6 => ⟨lliImm7 imm6, decode_encode_lli a imm6, sext7_lliImm7 imm6⟩⟩

/-- Settles O5: each word is evaluated. -/
theorem writtenOutWordsDecode : Obligations.WrittenOutWordsDecode := by
  refine ⟨?_, ?_, ?_, ?_, ?_, ?_, ?_, ?_, ?_⟩ <;> decide

end Sys2Proof
end

section
/-! Where the operands of a decoded instruction lie in its word, which row of the opcode table a word
selects, and its display label (R71 to R80). -/

namespace Sys2Proof

/-! ### Fields by shift and mask -/

/-- A shift and a mask of `m` ones take `m` bits from bit `k` up. -/
theorem shiftRight_and_ones (n k m : Nat) : (n >>> k) &&& (2 ^ m - 1) = n / 2 ^ k % 2 ^ m := by
  rw [Nat.shiftRight_eq_div_pow, Nat.and_two_pow_sub_one_eq_mod]

section
variable (w : Word)

theorem decodeFields_a_bits : (decodeFields w).a.index = (w.toNat >>> 10) &&& 0x7 :=
  (decodeFields_a w).trans (shiftRight_and_ones w.toNat 10 3).symm

theorem decodeFields_b_bits : (decodeFields w).b.index = (w.toNat >>> 7) &&& 0x7 :=
  (decodeFields_b w).trans (shiftRight_and_ones w.toNat 7 3).symm

theorem decodeFields_c_bits : (decodeFields w).c.index = w.toNat &&& 0x7 :=
  (decodeFields_c w).trans (Nat.and_two_pow_sub_one_eq_mod w.toNat 3).symm

theorem decodeFields_unused_bits :
    (decodeFields w).unused.toNat = (w.toNat >>> 3) &&& 0xF :=
  (decodeFields_unused w).trans (shiftRight_and_ones w.toNat 3 4).symm

theorem decodeFields_imm7_bits : (decodeFields w).imm7.toNat = w.toNat &&& 0x7F :=
  (decodeFields_imm7 w).trans (Nat.and_two_pow_sub_one_eq_mod w.toNat 7).symm

theorem decodeFields_imm10_bits : (decodeFields w).imm10.toNat = w.toNat &&& 0x3FF :=
  (decodeFields_imm10 w).trans (Nat.and_two_pow_sub_one_eq_mod w.toNat 10).symm

end

/-- Settles O7, field by field. -/
theorem fieldsLieAtTheirPositions : Obligations.FieldsLieAtTheirPositions := by
  intro w
  have hop : (decodeFields w).op.toNat = (w.toNat >>> 13) &&& 0x7 := by
    have hshift : (w.toNat >>> 13) &&& 0x7 = w.toNat / 8192 % 8 := shiftRight_and_ones w.toNat 13 3
    have := w.isLt
    rw [decodeFields_op, hshift]
    omega
  have himm10 : (decodeFields w).imm10.toNat ≤ 1023 := by
    have := (decodeFields w).imm10.isLt
    omega
  have hsext : sext7 (decodeFields w).imm7 =
      if 64 ≤ w.toNat &&& 0x7F then ((w.toNat &&& 0x7F : Nat) : Int) - 128
      else ((w.toNat &&& 0x7F : Nat) : Int) := by
    rw [sext7, decodeFields_imm7_bits]
  exact ⟨hop, decodeFields_a_bits w, decodeFields_b_bits w, decodeFields_c_bits w,
    decodeFields_unused_bits w, decodeFields_imm10_bits w, himm10, hsext,
    Machine.sext7_range (decodeFields w).imm7⟩

/-- Settles O8: each row's instruction takes the fields of its shape. -/
theorem operandsAreReadFromTheirBits : Obligations.OperandsAreReadFromTheirBits := by
  intro w i h A B C
  have ha : (decodeFields w).a.index = A := decodeFields_a_bits w
  have hb : (decodeFields w).b.index = B := decodeFields_b_bits w
  have hc : (decodeFields w).c.index = C := decodeFields_c_bits w
  have hx := decodeFields_unused_bits w
  have himm := decodeFields_imm7_bits w
  obtain ⟨-, hi⟩ := decode_eq_ok_iff.1 h
  generalize i.opcode = o at hi
  subst hi
  cases o with
  | add | nand => exact ⟨ha, hb, hc, hx⟩
  | addi | sw | lw | beq => exact ⟨ha, hb, himm⟩
  | lui => exact ⟨ha, decodeFields_imm10_bits w⟩
  | jalr =>
    by_cases hab : (decodeFields w).a = .r0 ∧ (decodeFields w).b = .r0
    · have hhalt : Opcode.jalr.instrOf (decodeFields w) = .halt (decodeFields w).imm7 := if_pos hab
      rw [hhalt]
      rw [hab.1] at ha
      rw [hab.2] at hb
      exact ⟨ha.symm, hb.symm, himm⟩
    · rw [instrOf_jalr_of_ne hab]
      exact ⟨ha, hb, himm⟩

/-! ### The opcode table's masks -/

/-- The match of an opcode's row under the mask 0xE000 (R77). -/
def Opcode.rowMatch : Opcode → Word
  | .add => 0x0000
  | .addi => 0x2000
  | .nand => 0x4000
  | .lui => 0x6000
  | .sw => 0x8000
  | .lw => 0xA000
  | .beq => 0xC000
  | .jalr => 0xE000

theorem rowMatch_toNat (o : Opcode) : o.rowMatch.toNat = opcodeNumber o * 8192 := by
  cases o <;> decide

/-- The mask 0xE000 with an opcode's match picks out the words with its number (R77). -/
theorem opcodeRow_iff (w : Word) (o : Opcode) :
    w &&& 0xE000 = o.rowMatch ↔ w.toNat / 8192 = opcodeNumber o := by
  have ho := opcodeNumber_lt o
  have hw := w.isLt
  rw [Laws.RowBits.opcode_bits (w := w) (n := w.toNat / 8192) (by omega) rfl, ← BitVec.toNat_inj,
    BitVec.toNat_ofNat, rowMatch_toNat]
  omega

/-- The mask 0xFF80 clears a word's seven low bits. -/
theorem toNat_and_FF80 (w : Word) : (w &&& 0xFF80).toNat = w.toNat / 128 * 128 := by
  have hmask : ∀ k < 16, (0xFF80 : Word).getLsbD k = decide (7 ≤ k) := by decide
  have hclear : w &&& (0xFF80 : Word) = w >>> 7 <<< 7 := by
    apply BitVec.eq_of_getLsbD_eq
    intro k hk
    rw [BitVec.getLsbD_and, hmask k hk, BitVec.getLsbD_shiftLeft, BitVec.getLsbD_ushiftRight]
    by_cases h7 : 7 ≤ k
    · simp [h7, hk]
    · simp [h7]
  have := w.isLt
  rw [hclear, BitVec.toNat_shiftLeft, BitVec.toNat_ushiftRight, Nat.shiftLeft_eq,
    Nat.shiftRight_eq_div_pow]
  omega

theorem and_FF80_eq_iff (w w' : Word) :
    w &&& 0xFF80 = w' &&& 0xFF80 ↔ w.toNat / 128 = w'.toNat / 128 := by
  rw [← BitVec.toNat_inj, toNat_and_FF80, toNat_and_FF80]
  omega

/-- The halt-form row's mask and match (R77, R78). -/
theorem haltRow_iff (w : Word) : w &&& 0xFF80 = 0xE000 ↔ ∃ x, decode w = .ok (.halt x) := by
  rw [Machine.decode_halt_iff, ← BitVec.toNat_inj, toNat_and_FF80]
  simp only [BitVec.reduceToNat]
  omega

/-- An instruction that a word decodes to is of the row whose mask and match the word meets. -/
theorem opcodeRow_of_decode {w : Word} {i : Instr} (h : decode w = .ok i) :
    w &&& 0xE000 = i.opcode.rowMatch :=
  (opcodeRow_iff w i.opcode).2 (decode_eq_ok_iff.1 h).1

/-- A word that meets an opcode's mask and match decodes to that row's instruction. -/
theorem decode_of_opcodeRow {w : Word} (o : Opcode)
    (h : w &&& 0xE000 = o.rowMatch) :
    decode w = .ok (o.instrOf (decodeFields w)) :=
  decode_of_opcodeNumber ((opcodeRow_iff w o).1 h)

/-- The JALR row, after the halt-form row (R77). -/
theorem jalrRow_iff (w : Word) :
    w &&& 0xE000 = 0xE000 ∧ w &&& 0xFF80 ≠ 0xE000 ↔ ∃ a b x, decode w = .ok (.jalr a b x) := by
  rw [Ne, haltRow_iff]
  constructor
  · rintro ⟨hrow, hnot⟩
    have hdecode := decode_of_opcodeRow .jalr hrow
    by_cases hab : (decodeFields w).a = .r0 ∧ (decodeFields w).b = .r0
    · exact absurd ⟨_, hdecode.trans (congrArg Except.ok (if_pos hab))⟩ hnot
    · rw [instrOf_jalr_of_ne hab] at hdecode
      exact ⟨_, _, _, hdecode⟩
  · rintro ⟨a, b, x, h⟩
    refine ⟨opcodeRow_of_decode h, fun ⟨y, hy⟩ => ?_⟩
    rw [h] at hy
    cases hy

/-- Settles O6: the seven rows that an opcode alone selects, then the JALR row and its halt form. -/
theorem opcodeTableSelectsInstruction : Obligations.OpcodeTableSelectsInstruction := by
  intro w
  refine ⟨?add, ?addi, ?nand, ?lui, ?sw, ?lw, ?beq, jalrRow_iff w, haltRow_iff w⟩
  case add =>
    exact ⟨fun h => ⟨_, _, _, _, decode_of_opcodeRow .add h⟩,
      fun ⟨_, _, _, _, h⟩ => opcodeRow_of_decode h⟩
  case addi =>
    exact ⟨fun h => ⟨_, _, _, decode_of_opcodeRow .addi h⟩,
      fun ⟨_, _, _, h⟩ => opcodeRow_of_decode h⟩
  case nand =>
    exact ⟨fun h => ⟨_, _, _, _, decode_of_opcodeRow .nand h⟩,
      fun ⟨_, _, _, _, h⟩ => opcodeRow_of_decode h⟩
  case lui =>
    exact ⟨fun h => ⟨_, _, decode_of_opcodeRow .lui h⟩,
      fun ⟨_, _, h⟩ => opcodeRow_of_decode h⟩
  case sw =>
    exact ⟨fun h => ⟨_, _, _, decode_of_opcodeRow .sw h⟩,
      fun ⟨_, _, _, h⟩ => opcodeRow_of_decode h⟩
  case lw =>
    exact ⟨fun h => ⟨_, _, _, decode_of_opcodeRow .lw h⟩,
      fun ⟨_, _, _, h⟩ => opcodeRow_of_decode h⟩
  case beq =>
    exact ⟨fun h => ⟨_, _, _, decode_of_opcodeRow .beq h⟩,
      fun ⟨_, _, _, h⟩ => opcodeRow_of_decode h⟩

/-! ### Display labels -/

/-- The 7-bit immediate is positive when its top bit is clear and it is not 0. -/
theorem sext7_pos_iff (v : BitVec 7) : 0 < sext7 v ↔ 0 < v.toNat ∧ v.toNat < 64 := by
  have := v.isLt
  rw [sext7]
  split <;> omega

theorem Reg.eq_r0_iff (r : Reg) : r = .r0 ↔ r.index = 0 :=
  (Reg.index_inj (q := .r0)).symm

section
variable (o : Opcode) (f : Fields)

/-- The label of each row's instruction, by its fields (R80). -/
theorem displayOf_instrOf :
    displayOf (o.instrOf f) =
      if o = .add ∧ f.a = .r0 ∧ f.b = .r0 ∧ f.c = .r0 then .nop
      else if o = .addi ∧ f.a = f.b ∧ 0 < sext7 f.imm7 then .lli
      else if o = .jalr ∧ f.a = .r0 ∧ f.b = .r0 then .halt
      else .plain o := by
  cases o with
  | jalr =>
    by_cases hab : f.a = .r0 ∧ f.b = .r0
    · simp [Opcode.instrOf, displayOf, hab]
    · simp [instrOf_jalr_of_ne hab, displayOf, hab]
  | _ => simp [Opcode.instrOf, displayOf]

theorem displayOf_instrOf_eq_nop_iff :
    displayOf (o.instrOf f) = .nop ↔ o = .add ∧ f.a = .r0 ∧ f.b = .r0 ∧ f.c = .r0 := by
  rw [displayOf_instrOf]
  split_ifs with hnop <;> simp [hnop]

theorem displayOf_instrOf_eq_lli_iff :
    displayOf (o.instrOf f) = .lli ↔ o = .addi ∧ f.a = f.b ∧ 0 < sext7 f.imm7 := by
  rw [displayOf_instrOf]
  split_ifs with hnop hlli
  · simp [hnop]
  · simp [hlli]
  · simp [hlli]
  · simp [hlli]

theorem displayOf_instrOf_eq_halt_iff :
    displayOf (o.instrOf f) = .halt ↔ o = .jalr ∧ f.a = .r0 ∧ f.b = .r0 := by
  rw [displayOf_instrOf]
  split_ifs with hnop hlli hhalt
  · simp [hnop]
  · simp [hlli]
  · simp [hhalt]
  · simp [hhalt]

theorem displayOf_instrOf_eq_plain_iff (o' : Opcode) :
    displayOf (o.instrOf f) = .plain o' ↔ o = o' ∧ displayOf (o.instrOf f) ≠ .nop ∧
      displayOf (o.instrOf f) ≠ .lli ∧ displayOf (o.instrOf f) ≠ .halt := by
  rw [displayOf_instrOf]
  split_ifs <;> simp

end

/-- Settles O9: a word's label is that of its row's instruction, whose conditions are on the row's
number and its fields. -/
theorem displayLabelsOfWords : Obligations.DisplayLabelsOfWords := by
  intro w op A B C imm
  obtain ⟨o, ho, hdecode⟩ := exists_decode_row w
  have hop (o' : Opcode) : o = o' ↔ op = opcodeNumber o' := by
    rw [← opcodeNumber_inj, ← ho]
  have ha : (decodeFields w).a.index = A := decodeFields_a w
  have hb : (decodeFields w).b.index = B := decodeFields_b w
  have hc : (decodeFields w).c.index = C := decodeFields_c w
  have himm : (decodeFields w).imm7.toNat = imm := decodeFields_imm7 w
  have hlabel (d : Display) :
      display w = .ok d ↔ displayOf (o.instrOf (decodeFields w)) = d := by
    rw [display, hdecode, Except.map, Except.ok.injEq]
  simp only [ne_eq, hlabel]
  refine ⟨?nop, ?lli, ?halt, fun o' => ?plain⟩
  case nop =>
    rw [displayOf_instrOf_eq_nop_iff, hop, Reg.eq_r0_iff, Reg.eq_r0_iff, Reg.eq_r0_iff, ha, hb, hc,
      opcodeNumber_add]
  case lli =>
    rw [displayOf_instrOf_eq_lli_iff, hop, ← Reg.index_inj, sext7_pos_iff, ha, hb, himm,
      opcodeNumber_addi]
  case halt =>
    rw [displayOf_instrOf_eq_halt_iff, hop, Reg.eq_r0_iff, Reg.eq_r0_iff, ha, hb,
      opcodeNumber_jalr]
  case plain => rw [displayOf_instrOf_eq_plain_iff, hop]

end Sys2Proof
end

section
/-! The display aliases executed as the instructions they label (R80), and that the bits a shape
ignores change nothing a step does (R79). -/

namespace Sys2Proof.Machine

/-! ### The aliases -/

/-- A write to register 0 keeps every register. -/
theorem State.regsKept_writeAndAdvance_r0 (s : State) (v : Int) :
    s.RegsKept (s.writeAndAdvance .r0 v) := fun _ => rfl

/-- What `x[A] <- v` with the sequential advance leaves as it was. -/
theorem State.regsKeptBut_writeAndAdvance (s : State) (a : Reg) (v : Int) :
    s.RegsKeptBut (s.writeAndAdvance a v) a := by
  intro r hr
  rw [State.readReg_writeAndAdvance, if_neg (fun h => hr h.1)]

theorem State.memKept_writeAndAdvance (s : State) (a : Reg) (v : Int) :
    s.MemKept (s.writeAndAdvance a v) := fun _ => rfl

theorem State.controlKept_writeAndAdvance (s : State) (a : Reg) (v : Int) :
    s.ControlKept (s.writeAndAdvance a v) := ⟨rfl, rfl, rfl⟩

/-- Settles O28: nop and ADD of register 0 write the same sum to register 0. -/
theorem nopExecutesAsItsAdd : Obligations.NopExecutesAsItsAdd := by
  intro x s
  exact ⟨_, exec_nop s x, exec_add s .r0 .r0 .r0 x, s.regsKept_writeAndAdvance_r0 _,
    s.memKept_writeAndAdvance _ _, s.controlKept_writeAndAdvance _ _, rfl⟩

/-- Settles O29: lli's word decodes to the ADDI with the same immediate, which writes the same
sum. -/
theorem lliExecutesAsItsAddi : Obligations.LliExecutesAsItsAddi := by
  intro a imm6 s
  refine ⟨_, exec_lli s a imm6, fun i hi => ?_, fun ha => ?_, rfl,
    s.regsKeptBut_writeAndAdvance a _, s.memKept_writeAndAdvance a _,
    s.controlKept_writeAndAdvance a _, rfl⟩
  · obtain rfl : .addi a a (lliImm7 imm6) = i :=
      Except.ok.inj ((decode_encode_lli a imm6).symm.trans hi)
    exact exec_addi s a a (lliImm7 imm6)
  · rw [State.readReg_writeAndAdvance, if_pos ⟨rfl, ha⟩, sumImm, sext7_lliImm7]
    exact mod16_toNat _

/-! ### The ignored bits -/

/-- An instruction with the bits that no rule reads set to 0 (R79). -/
def clearIgnored : Instr → Instr
  | .add a b c _ => .add a b c 0
  | .nand a b c _ => .nand a b c 0
  | .jalr a b _ => .jalr a b 0
  | .halt _ => .halt 0
  | .nop _ => .nop 0
  | i => i

theorem exec_clearIgnored (i : Instr) (s : State) : exec (clearIgnored i) s = exec i s := by
  cases i <;> rfl

/-- Instructions that differ in ignored bits only execute alike. -/
theorem exec_eq_of_clearIgnored_eq {i j : Instr} (h : clearIgnored i = clearIgnored j)
    (s : State) : exec i s = exec j s := by
  rw [← exec_clearIgnored i, h, exec_clearIgnored]

/-- The rows whose shape or instruction ignores bits of the word (decision D7). -/
def IgnoresBits (o : Opcode) : Prop := o = .add ∨ o = .nand ∨ o = .jalr

/-- Fields with the same registers give such a row's instruction up to the ignored bits; the field C
counts for ADD and NAND only. -/
theorem clearIgnored_instrOf_congr {o : Opcode} {f g : Fields} (ho : IgnoresBits o)
    (ha : f.a = g.a) (hb : f.b = g.b) (hc : o ≠ .jalr → f.c = g.c) :
    clearIgnored (o.instrOf f) = clearIgnored (o.instrOf g) := by
  obtain rfl | rfl | rfl := ho
  · simp [Opcode.instrOf, clearIgnored, ha, hb, hc]
  · simp [Opcode.instrOf, clearIgnored, ha, hb, hc]
  · simp only [Opcode.instrOf, ha, hb]
    split <;> rfl

/-- Words that agree from bit 7 up have the same opcode and the same fields A and B. -/
theorem upperFields_eq {w w' : Word} (h : w &&& 0xFF80 = w' &&& 0xFF80) :
    w.toNat / 8192 = w'.toNat / 8192 ∧ (decodeFields w).a = (decodeFields w').a ∧
      (decodeFields w).b = (decodeFields w').b := by
  rw [and_FF80_eq_iff] at h
  refine ⟨by omega, Reg.index_inj.1 ?_, Reg.index_inj.1 ?_⟩
  · rw [decodeFields_a, decodeFields_a]; omega
  · rw [decodeFields_b, decodeFields_b]; omega

/-- The mask 0xFF87 keeps what 0xFF80 keeps, and the field C. -/
theorem and_FF80_eq_of_and_FF87_eq {w w' : Word} (h : w &&& 0xFF87 = w' &&& 0xFF87) :
    w &&& 0xFF80 = w' &&& 0xFF80 ∧ (decodeFields w).c = (decodeFields w').c := by
  have hmask (m : Word) (hm : 0xFF87 &&& m = m) : w &&& m = w' &&& m := by
    rw [← hm, ← BitVec.and_assoc, ← BitVec.and_assoc, h]
  refine ⟨hmask 0xFF80 (by decide), Reg.index_inj.1 ?_⟩
  have hlow := congrArg BitVec.toNat (hmask 7 (by decide))
  rw [decodeFields_c_bits, decodeFields_c_bits]
  simpa using hlow

/-- Words that agree but in ignored bits decode to instructions that agree but in them. -/
theorem decode_of_agree {w w' : Word}
    (h : (w &&& 0xFF87 = w' &&& 0xFF87 ∧ (w &&& 0xE000 = 0x0000 ∨ w &&& 0xE000 = 0x4000)) ∨
      (w &&& 0xFF80 = w' &&& 0xFF80 ∧ w &&& 0xE000 = 0xE000)) :
    ∃ i i', decode w = .ok i ∧ decode w' = .ok i' ∧ IgnoresBits i.opcode ∧
      IgnoresBits i'.opcode ∧ clearIgnored i = clearIgnored i' := by
  obtain ⟨o, ho, hrow, hupper, hc⟩ : ∃ o : Opcode, IgnoresBits o ∧ w &&& 0xE000 = o.rowMatch ∧
      w &&& 0xFF80 = w' &&& 0xFF80 ∧ (o ≠ .jalr → (decodeFields w).c = (decodeFields w').c) := by
    obtain ⟨h87, hadd | hnand⟩ | ⟨h80, hjalr⟩ := h
    · obtain ⟨h80, hc⟩ := and_FF80_eq_of_and_FF87_eq h87
      exact ⟨.add, .inl rfl, hadd, h80, fun _ => hc⟩
    · obtain ⟨h80, hc⟩ := and_FF80_eq_of_and_FF87_eq h87
      exact ⟨.nand, .inr (.inl rfl), hnand, h80, fun _ => hc⟩
    · exact ⟨.jalr, .inr (.inr rfl), hjalr, h80, fun hne => absurd rfl hne⟩
  obtain ⟨hop, ha, hb⟩ := upperFields_eq hupper
  have hnum := (opcodeRow_iff w o).1 hrow
  have hignores (f : Fields) : IgnoresBits (o.instrOf f).opcode := by rwa [opcode_instrOf]
  exact ⟨_, _, decode_of_opcodeNumber hnum, decode_of_opcodeNumber (hop ▸ hnum), hignores _,
    hignores _, clearIgnored_instrOf_congr ho ha hb hc⟩

/-- An instruction of such a row reads and writes no memory: it executes alike before and after a
store. -/
theorem exec_writeMem_of_ignoresBits {i : Instr} {s u : State} (hi : IgnoresBits i.opcode)
    (h : exec i s = .next u) (addr : Word) (v : Int) :
    exec i (s.writeMem addr v) = .next (u.writeMem addr v) := by
  cases i with
  | add | nand | nop | halt => cases h; rfl
  | jalr a b x =>
    by_cases hab : a = .r0 ∧ b = .r0
    · obtain ⟨rfl, rfl⟩ := hab
      cases h
      rfl
    · rw [exec_jalr s a b x hab] at h
      cases h
      exact exec_jalr _ a b x hab
  | _ => simp [IgnoresBits, Instr.opcode] at hi

theorem State.Ready.writeMem {s : State} (hs : s.Ready) (addr : Word) (v : Int) :
    (s.writeMem addr v).Ready :=
  ⟨hs.noFault, hs.running, hs.pcLow, hs.pcHigh⟩

/-- The step of a word of such a row, put at the pc. -/
theorem step_writeMem_fetchAddress {s u : State} {w : Word} {i : Instr} (hs : s.Ready)
    (hw : decode w = .ok i) (hi : IgnoresBits i.opcode) (hu : exec i s = .next u) :
    step (s.writeMem s.fetchAddress w.val) =
      .next (u.writeMem s.fetchAddress w.val).countStep := by
  have hword : (s.writeMem s.fetchAddress w.val).readMem s.fetchAddress = w := by
    rw [State.readMem_writeMem, if_pos rfl, mod16_val]
  rw [step_of_ready (hs.writeMem _ _) (by rw [← hw]; exact congrArg decode hword),
    exec_writeMem_of_ignoresBits hi hu]
  rfl

/-- Settles O41: both words decode to the same instruction but for ignored bits, so both steps are
the same next state but for the word at the pc. -/
theorem ignoredBitsDoNotMatter : Obligations.IgnoredBitsDoNotMatter := by
  intro s w w' hs h
  obtain ⟨i, i', hi, hi', hrow, hrow', hclear⟩ := decode_of_agree h
  obtain ⟨u, hu⟩ := exec_completes i s
  have hu' : exec i' s = .next u := (exec_eq_of_clearIgnored_eq hclear s).symm.trans hu
  refine ⟨_, _, step_writeMem_fetchAddress hs hi hrow hu,
    step_writeMem_fetchAddress hs hi' hrow' hu', rfl, rfl, rfl, fun addr haddr => ?_⟩
  rw [State.countStep_readMem, State.countStep_readMem, State.readMem_writeMem,
    State.readMem_writeMem, if_neg haddr, if_neg haddr]

end Sys2Proof.Machine
end

section
/-! ADD, ADDI, NAND and LUI: the words they write and what they leave (R90 to R93), and the two
programs the spec builds from them, constants and subtraction (R93, R94). -/

namespace Sys2Proof.Machine

/-! ### The words written -/

theorem mod16_add (v v' : Int) : mod16 (v + v') = mod16 v + mod16 v' := BitVec.ofInt_add v v'

section
variable (s : State) (b c : Reg)

theorem mod16_sumRegs : mod16 (sumRegs s b c) = s.readReg b + s.readReg c := by
  rw [sumRegs, mod16_add, State.regVal, State.regVal, mod16_val, mod16_val]

theorem mod16_sumImm (imm : BitVec 7) :
    mod16 (sumImm s b imm) = s.readReg b + mod16 (sext7 imm) := by
  rw [sumImm, mod16_add, State.regVal, mod16_val]

/-- Taking a word from 0xFFFF complements it. -/
theorem val_not (w : Word) : (~~~w).val = 0xFFFF - w.val := by
  have := w.isLt
  simp only [Word.val, BitVec.toNat_not]
  omega

theorem mod16_nandRegs : mod16 (nandRegs s b c) = ~~~(s.readReg b &&& s.readReg c) := by
  rw [nandRegs, ← val_not, mod16_val]

end

/-- The upper immediate's word is the immediate followed by six zeros (conflict C1). -/
theorem mod16_upperImm (imm : BitVec 10) : mod16 (upperImm imm) = imm ++ (0 : BitVec 6) := by
  have hword : (imm ++ (0 : BitVec 6)).toNat = imm.toNat * 64 := by
    rw [BitVec.toNat_append, Nat.shiftLeft_eq]
    exact Nat.or_zero _
  rw [eq_comm, eq_mod16_iff, Word.val, hword, upperImm]
  have := imm.isLt
  omega

/-! ### One instruction -/

theorem State.readReg_writeAndAdvance_self (s : State) {a : Reg} (ha : a ≠ .r0) (v : Int) :
    (s.writeAndAdvance a v).readReg a = mod16 v := by
  rw [State.readReg_writeAndAdvance, if_pos ⟨rfl, ha⟩]

/-- An instruction that ends in `x[A] <- v` and the sequential advance leaves a word with the
properties of `mod16 v` in its destination, and everything else as it was. -/
theorem exec_frame_of_writeAndAdvance {i : Instr} {s : State} {a : Reg} {v : Int}
    {P : Word → Prop} (h : exec i s = .next (s.writeAndAdvance a v)) (hv : P (mod16 v)) :
    ∃ t, exec i s = .next t ∧ (a ≠ .r0 → P (t.readReg a)) ∧
      t.readReg .r0 = 0 ∧ s.RegsKeptBut t a ∧ s.MemKept t ∧ s.ControlKept t ∧
      t.pc = s.pc + 1 := by
  refine ⟨_, h, fun ha => ?_, State.readReg_r0 _, s.regsKeptBut_writeAndAdvance a v,
    s.memKept_writeAndAdvance a v, s.controlKept_writeAndAdvance a v,
    State.writeAndAdvance_pc s a v⟩
  rwa [State.readReg_writeAndAdvance_self s ha]

/-- Settles O18: the exact sum is reduced once, by the write. -/
theorem addWritesTheSum : Obligations.AddWritesTheSum := fun a b c x s =>
  exec_frame_of_writeAndAdvance
    (P := fun w => w.val = ((s.readReg b).val + (s.readReg c).val) % 65536)
    (exec_add s a b c x) (mod16_toNat (sumRegs s b c))

/-- Settles O19: the same for the immediate, whose sign extension is its two's complement value. -/
theorem addiWritesTheSum : Obligations.AddiWritesTheSum := by
  intro a b imm s
  refine exec_frame_of_writeAndAdvance
    (P := fun w => w.val = ((s.readReg b).val + imm.toInt) % 65536) (exec_addi s a b imm) ?_
  rw [← sext7_eq_toInt]
  exact mod16_toNat (sumImm s b imm)

/-- Settles O20: what is written is a complement, which is a word already. -/
theorem nandWritesTheComplementOfTheAnd : Obligations.NandWritesTheComplementOfTheAnd :=
  fun a b c x s =>
    exec_frame_of_writeAndAdvance (P := fun w => w = ~~~(s.readReg b &&& s.readReg c))
      (exec_nand s a b c x) (mod16_nandRegs s b c)

/-- Settles O21: the two fields of an immediate followed by six zeros. -/
theorem luiWritesTheUpperBits : Obligations.LuiWritesTheUpperBits := by
  intro a imm s
  refine exec_frame_of_writeAndAdvance
    (P := fun w => w.extractLsb' 6 10 = imm ∧ w.extractLsb' 0 6 = 0) (exec_lui s a imm) ?_
  rw [mod16_upperImm]
  exact ⟨BitVec.extractLsb'_append_eq_left, BitVec.extractLsb'_append_eq_right⟩

/-! ### Several instructions -/

theorem State.RegsKeptBut.trans {s t u : State} {a : Reg} (hst : s.RegsKeptBut t a)
    (htu : t.RegsKeptBut u a) : s.RegsKeptBut u a :=
  fun r hr => (htu r hr).trans (hst r hr)

/-- A constant's bits 15..6, which LUI is given. -/
def highImm (k : Word) : BitVec 10 := BitVec.ofNat 10 (k.toNat >>> 6)

/-- A constant's bits 5..0, which ADDI is given. -/
def lowImm (k : Word) : BitVec 7 := BitVec.ofNat 7 (k.toNat &&& 0x3F)

theorem highImm_toNat (k : Word) : (highImm k).toNat = k.toNat / 64 := by
  have := k.isLt
  rw [highImm, BitVec.toNat_ofNat, Nat.shiftRight_eq_div_pow]
  omega

theorem lowImm_toNat (k : Word) : (lowImm k).toNat = k.toNat % 64 := by
  rw [lowImm, BitVec.toNat_ofNat, Nat.and_two_pow_sub_one_eq_mod k.toNat 6]
  omega

/-- The two immediates make up the constant: six bits are non-negative as a signed 7-bit field. -/
theorem upperImm_add_sext7 (k : Word) : upperImm (highImm k) + sext7 (lowImm k) = k.val := by
  rw [upperImm, sext7, highImm_toNat, lowImm_toNat, if_neg (by omega), Word.val]
  omega

/-- Settles O57: the two immediates, added modulo 2^16, are the constant. -/
theorem luiThenAddiBuildsAnyConstant : Obligations.LuiThenAddiBuildsAnyConstant := by
  intro a k s ha
  obtain ⟨t, ht, hlui, -, hregs, hmem, -, hpc⟩ :=
    exec_frame_of_writeAndAdvance (P := (· = mod16 (upperImm (highImm k))))
      (exec_lui s a (highImm k)) rfl
  obtain ⟨u, hu, haddi, -, hregs', hmem', -, hpc'⟩ :=
    exec_frame_of_writeAndAdvance (P := (· = t.readReg a + mod16 (sext7 (lowImm k))))
      (exec_addi t a a (lowImm k)) (mod16_sumImm t a (lowImm k))
  refine ⟨t, u, ht, hu, ?_, hregs.trans hregs', fun addr => (hmem' addr).trans (hmem addr),
    by omega⟩
  calc u.readReg a = t.readReg a + mod16 (sext7 (lowImm k)) := haddi ha
    _ = mod16 (upperImm (highImm k) + sext7 (lowImm k)) := by rw [hlui ha, mod16_add]
    _ = mod16 k.val := congrArg mod16 (upperImm_add_sext7 k)
    _ = k := mod16_val k

/-- The two's complement of a word, as NAND with itself and then 1 more. -/
theorem nand_self_add_one (w : Word) : ~~~(w &&& w) + mod16 (sext7 1) = -w := by
  rw [BitVec.and_self, BitVec.neg_eq_not_add]
  rfl

/-- Settles O58: the first two instructions leave the subtrahend's negative in `d` and the minuend,
in another register, as it was; the third adds it. -/
theorem nandBuildsSubtraction : Obligations.NandBuildsSubtraction := by
  intro d x y i i' s hd hx
  obtain ⟨t, ht, hnand, -, hst, -⟩ := nandWritesTheComplementOfTheAnd d y y i s
  obtain ⟨u, hu, haddi, -, htu, -⟩ :=
    exec_frame_of_writeAndAdvance (P := (· = t.readReg d + mod16 (sext7 1)))
      (exec_addi t d d 1) (mod16_sumImm t d 1)
  obtain ⟨v, hv, hadd, -, huv, -⟩ :=
    exec_frame_of_writeAndAdvance (P := (· = u.readReg x + u.readReg d))
      (exec_add u d x d i') (mod16_sumRegs u x d)
  have hsu : s.RegsKeptBut u d := hst.trans htu
  have hneg : u.readReg d = -s.readReg y := by
    rw [haddi hd, hnand hd, nand_self_add_one]
  refine ⟨t, u, v, ht, hu, hv, ?_, hsu.trans huv⟩
  rw [hadd hd, hsu x hx, hneg, BitVec.sub_eq_add_neg]

end Sys2Proof.Machine
end

section
/-! SW and LW: what they store and load, their one addressing mode, and that no other instruction
writes or reads a word of data (R100 to R102). -/

namespace Sys2Proof.Machine

/-- The addressing mode in exact integers (R102): base plus signed offset, reduced once. -/
theorem eq_effectiveAddress_iff (s : State) (b : Reg) (imm : BitVec 7) (addr : Word) :
    addr = effectiveAddress s b imm ↔
      addr.val = ((s.readReg b).val + imm.toInt) % 65536 := by
  rw [effectiveAddress, eq_mod16_iff, sumImm, sext7_eq_toInt, State.regVal]

/-- Settles O22: what a store leaves at its own and at every other address, with the sequential
advance. -/
theorem swStoresTheWord : Obligations.SwStoresTheWord := by
  intro a b imm s
  refine ⟨_, exec_sw s a b imm, ?_, fun addr haddr => ?_, fun _ => rfl, ⟨rfl, rfl, rfl⟩, rfl⟩
  · rw [State.advance_readMem, State.readMem_writeMem, if_pos rfl, State.regVal, mod16_val]
  · rw [State.advance_readMem, State.readMem_writeMem, if_neg haddr]

/-- Settles O23: what is written to the destination is a memory word, which needs no reduction. -/
theorem lwLoadsTheWord : Obligations.LwLoadsTheWord := fun a b imm s =>
  exec_frame_of_writeAndAdvance (P := (· = s.readMem (effectiveAddress s b imm)))
    (exec_lw s a b imm) (mod16_val _)

/-- Only LW reads a word of data: with another memory, every other instruction leaves the same
state but for the memory. -/
theorem exec_with_mem_of_not_lw {i : Instr} {s t : State} (h : exec i s = .next t)
    (hi : ∀ a b imm, i ≠ .lw a b imm) (m : Memory) :
    ∃ m', exec i { s with mem := m } = .next { t with mem := m' } := by
  cases i with
  | lw a b imm => exact absurd rfl (hi a b imm)
  | jalr a b x =>
    by_cases hab : a = .r0 ∧ b = .r0
    · obtain ⟨rfl, rfl⟩ := hab
      cases h
      exact ⟨m, rfl⟩
    · rw [exec_jalr s a b x hab] at h
      cases h
      exact ⟨m, exec_jalr _ a b x hab⟩
  | _ => cases h; exact ⟨_, rfl⟩

/-- Settles O32: the frames of SW and LW at the address in exact integers, that only SW changes the
memory, and that only LW depends on it. -/
theorem loadsAndStoresUseBasePlusOffset : Obligations.LoadsAndStoresUseBasePlusOffset := by
  refine fun s => ⟨fun a b imm => ?_, fun a b imm => ?_, fun i t h hi addr => ?_,
    fun i m t t' h h' hi => ?_⟩
  · obtain ⟨t, ht, hstored, -, hregs, -⟩ := swStoresTheWord a b imm s
    refine ⟨t, ht, fun addr haddr => ?_, hregs b⟩
    rwa [(eq_effectiveAddress_iff s b imm addr).2 haddr]
  · obtain ⟨t, ht, hloaded, -, hregs, -⟩ := lwLoadsTheWord a b imm s
    refine ⟨t, ht, fun addr haddr ha => ?_, hregs b⟩
    rw [(eq_effectiveAddress_iff s b imm addr).2 haddr, hloaded ha]
  · rw [State.readMem, exec_mem_of_not_sw h hi, State.readMem]
  · obtain ⟨m', hm'⟩ := exec_with_mem_of_not_lw h hi m
    cases hm'.symm.trans h'
    exact ⟨rfl, rfl, rfl⟩

end Sys2Proof.Machine
end

section
/-! BEQ, JALR and the halt form: where each goes and what it leaves (R110 to R113), and a JALR call
followed by the JALR return through its link (R114). -/

namespace Sys2Proof.Machine

/-! ### BEQ and the halt form -/

/-- Settles O24: the branch changes the pc alone, to its target on either outcome of the test. -/
theorem beqBranchesOnEquality : Obligations.BeqBranchesOnEquality := by
  intro a b imm s
  refine ⟨_, exec_beq s a b imm, fun heq => ?_, fun hne => ?_, fun _ => rfl, fun _ => rfl,
    State.setPc_run s _, State.setPc_steps s _, State.setPc_fault s _⟩
  · rw [State.setPc_pc, branchTarget_eq, if_pos heq]
  · rw [State.setPc_pc, branchTarget_eq, if_neg hne]

/-- Settles O27: the halt form and the JALR pattern with both fields 0 answer the same state, which
differs in the run state alone. -/
theorem haltFormOnlyHalts : Obligations.HaltFormOnlyHalts := fun x s =>
  ⟨s.halt, exec_halt s x, exec_jalr_halt s x, State.halt_run s, fun _ => rfl, fun _ => rfl,
    State.halt_pc s, State.halt_steps s, State.halt_fault s⟩

/-! ### JALR -/

theorem readReg_linkAndJump_self (s : State) {a : Reg} (ha : a ≠ .r0) (b : Reg) :
    (linkAndJump s a b).readReg a = mod16 (s.pc + 1) := by
  rw [readReg_linkAndJump, if_pos ⟨rfl, ha⟩]

theorem readReg_linkAndJump_of_ne (s : State) {a r : Reg} (hr : r ≠ a) (b : Reg) :
    (linkAndJump s a b).readReg r = s.readReg r := by
  rw [readReg_linkAndJump, if_neg (fun h => hr h.1)]

/-- The target is read after the link is written, and the jump keeps the registers (R111, R144). -/
theorem linkAndJump_pc_eq_readReg (s : State) (a b : Reg) :
    (linkAndJump s a b).pc = ((linkAndJump s a b).readReg b).val := rfl

/-- Settles O25: the pc is the target register's value after the link is written, which is the old
value of any register but the link's. -/
theorem jalrLinksAndJumps : Obligations.JalrLinksAndJumps := by
  intro a b x s hab
  refine ⟨_, exec_jalr s a b x hab, fun ha => ?_, State.readReg_r0 _,
    linkAndJump_pc_eq_readReg s a b, fun hba => ?_,
    fun r hr => readReg_linkAndJump_of_ne s hr b,
    fun addr => linkAndJump_readMem s addr a b, linkAndJump_run s a b, linkAndJump_steps s a b,
    linkAndJump_fault s a b⟩
  · rw [readReg_linkAndJump_self s ha]
    exact mod16_toNat (s.pc + 1)
  · rw [linkAndJump_pc_eq_readReg, readReg_linkAndJump_of_ne s hba]

/-- Settles O26: the target register holds the link by the time it is read. -/
theorem jalrSameRegisterFallsThrough : Obligations.JalrSameRegisterFallsThrough := by
  intro r x s hr
  obtain ⟨t, ht, hlink, -, hpc, -, hregs, hmem, hcontrol⟩ :=
    jalrLinksAndJumps r r x s (fun h => hr h.1)
  have hpc_link : t.pc = (s.pc + 1) % 65536 := hpc.trans (hlink hr)
  refine ⟨t, ht, hlink hr, hpc_link, fun htop => ⟨?_, by omega⟩, hregs, hmem, hcontrol⟩
  rw [(eq_mod16_iff (t.readReg r) (s.pc + 1)).2 (hlink hr), mod16_eq_zero_iff]
  omega

/-! ### Call and return -/

/-- What changes register 0 at most changes no register, since register 0 always reads 0. -/
theorem State.RegsKeptBut.regsKept {s t : State} (h : s.RegsKeptBut t .r0) : s.RegsKept t := by
  intro r
  by_cases hr : r = .r0
  · rw [hr, State.readReg_r0, State.readReg_r0]
  · exact h r hr

/-- Settles O56: below 0xFFFF the link is the exact `pc + 1`, and a JALR that links to register 0
jumps to it and discards its own link. -/
theorem callThenReturnComesBack : Obligations.CallThenReturnComesBack := by
  intro L T x x' s u hL hlow hhigh
  obtain ⟨t, ht, hlink, -, -, htarget, -⟩ := jalrLinksAndJumps L T x s (fun h => hL h.1)
  refine ⟨t, ht, fun hLT => htarget hLT.symm, fun hkept => ?_⟩
  obtain ⟨v, hv, -, -, -, hback, hregs, hmem, -⟩ :=
    jalrLinksAndJumps .r0 L x' u (fun h => hL h.2)
  have hreturn : v.pc = s.pc + 1 := calc
    v.pc = (u.readReg L).val := hback hL
    _ = (t.readReg L).val := by rw [hkept]
    _ = (s.pc + 1) % 65536 := hlink hL
    _ = s.pc + 1 := Int.emod_eq_of_lt (by omega) (by omega)
  exact ⟨v, hv, hreturn, hregs.regsKept, hmem⟩

end Sys2Proof.Machine
end

section
/-! Fatal conditions (R120 to R127): which step raises one, which instruction leaves a pc that the
next step will raise on, and that a run call ending in a fault leaves the raising state, with the
record. -/

namespace Sys2Proof.Machine

/-- Settles O36: a fault is the overflow of the pc, and the range check raises that overflow. -/
theorem stepFaultsExactlyOnPcOverflow : Obligations.StepFaultsExactlyOnPcOverflow := by
  intro s f hf hr
  constructor
  · exact step_fault_inv hf hr
  · rintro ⟨hpc, rfl⟩
    exact step_of_pc_out_of_range hf hr hpc

/-! ### Leaving the range -/

/-- A JALR stays in range: its target is a 16-bit value, and the halt form keeps the pc. -/
theorem exec_jalr_pc_range {a b : Reg} {x : BitVec 7} {s t : State}
    (h : exec (.jalr a b x) s = .next t) (hs : 0 ≤ s.pc ∧ s.pc ≤ 0xFFFF) :
    0 ≤ t.pc ∧ t.pc ≤ 0xFFFF := by
  by_cases hab : a = .r0 ∧ b = .r0
  · obtain ⟨rfl, rfl⟩ := hab
    cases h
    exact hs
  · rw [exec_jalr s a b x hab] at h
    cases h
    exact linkAndJump_pc_range s a b

/-- An instruction other than JALR and the halt form advances by one or is a taken BEQ (R32). -/
theorem exec_pc_advances_or_branches {i : Instr} {s t : State} (h : exec i s = .next t)
    (hjalr : ∀ a b x, i ≠ .jalr a b x) (hhalt : ∀ x, i ≠ .halt x) :
    t.pc = s.pc + 1 ∨
      ∃ a b imm7, i = .beq a b imm7 ∧ s.readReg a = s.readReg b ∧
        t.pc = s.pc + imm7.toInt + 1 := by
  have hpc := nextPcIsExact.1 i s t h
  cases i with
  | beq a b imm =>
    by_cases heq : s.readReg a = s.readReg b
    · exact .inr ⟨a, b, imm, rfl, heq, hpc.trans (if_pos heq)⟩
    · exact .inl (hpc.trans (if_neg heq))
  | jalr a b x => exact absurd rfl (hjalr a b x)
  | halt x => exact absurd rfl (hhalt x)
  | _ => exact .inl hpc

/-- Settles O39: the step fetched in range, so JALR and the halt form leave a pc in range, and a
sequential advance leaves the range from 0xFFFF only. -/
theorem pcLeavesTheRangeOnlySo : Obligations.PcLeavesTheRangeOnlySo := by
  intro s t h hout
  obtain ⟨hs, i, u, hi, hu, rfl⟩ := step_next_inv h
  rw [State.countStep_pc] at hout ⊢
  have hrange : 0 ≤ s.pc ∧ s.pc ≤ 0xFFFF := ⟨hs.pcLow, hs.pcHigh⟩
  have hjalr : ∀ a b x, i ≠ .jalr a b x := by
    rintro a b x rfl
    have := exec_jalr_pc_range hu hrange
    omega
  have hhalt : ∀ x, i ≠ .halt x := by
    rintro x rfl
    have : u.pc = s.pc := nextPcIsExact.1 _ s u hu
    omega
  refine ⟨i, hi, hjalr, hhalt, ?_⟩
  obtain hadvance | hbranch := exec_pc_advances_or_branches hu hjalr hhalt
  · exact .inl (by omega)
  · exact .inr hbranch

/-! ### The state a fault leaves -/

/-- The fault record is not part of what the host reads (R45). -/
@[simp] theorem State.raise_observe (s : State) (f : Fault) : (s.raise f).observe = s.observe := rfl

/-- Settles O50: the state left is the raising state with the fault recorded, and recording changes
the record alone. -/
theorem fatalConditionsArePrecise : Obligations.FatalConditionsArePrecise := by
  intro n s t f hn hf h
  obtain ⟨-, -, hfault⟩ := runOutcomesAreItsSteps n s t hn hf
  obtain ⟨k, u, hk, hrun, -, hstep, rfl⟩ := (hfault f).1 h
  exact ⟨k, u, hk, hrun, hstep, State.raise_observe u f, State.raise_regs u f, State.raise_mem u f,
    State.raise_pc u f, State.raise_run u f, State.raise_steps u f, State.raise_fault u f⟩

end Sys2Proof.Machine
end

section
/-! The order of reads and writes inside one instruction (R144), and the endless loop that only its
budget ends (R145). -/

namespace Sys2Proof.Machine

/-! ### Reads and writes inside one instruction -/

/-- An instruction answers one state, so what holds of some state it answers holds of each. -/
theorem exec_next_elim {i : Instr} {s t : State} {P : State → Prop}
    (hP : ∃ u, exec i s = .next u ∧ P u) (h : exec i s = .next t) : P t := by
  obtain ⟨u, hu, hPu⟩ := hP
  cases hu.symm.trans h
  exact hPu

/-- What LUI leaves in its destination comes from the immediate alone, also for register 0. -/
theorem exec_lui_readReg {a : Reg} {imm : BitVec 10} {s s' t t' : State}
    (h : exec (.lui a imm) s = .next t) (h' : exec (.lui a imm) s' = .next t') :
    t.readReg a = t'.readReg a := by
  cases (exec_lui s a imm).symm.trans h
  cases (exec_lui s' a imm).symm.trans h'
  exact RegFile.read_write_self s.regs s'.regs a (upperImm imm)

/-- Settles O31: each instruction's own statement already speaks of the old registers, and JALR's of
the registers it leaves, with no condition that destination and source differ. -/
theorem sourcesAreReadBeforeTheWriteButForJalr :
    Obligations.SourcesAreReadBeforeTheWriteButForJalr := by
  refine fun s => ⟨fun a b c x t ha h => ?add, fun a b imm t ha h => ?addi,
    fun a b c x t ha h => ?nand, fun a b imm t ha h => ?lw, fun a b x t hab h => ?jalr,
    fun a b imm t h => ?sw, fun a b imm t h => ?beq, fun a imm s' t t' => exec_lui_readReg⟩
  case add =>
    obtain ⟨hsum, -⟩ := exec_next_elim (addWritesTheSum a b c x s) h
    exact hsum ha
  case addi =>
    obtain ⟨hsum, -⟩ := exec_next_elim (addiWritesTheSum a b imm s) h
    exact hsum ha
  case nand =>
    obtain ⟨hnand, -⟩ := exec_next_elim (nandWritesTheComplementOfTheAnd a b c x s) h
    exact hnand ha
  case lw =>
    obtain ⟨hloaded, -⟩ := exec_next_elim (lwLoadsTheWord a b imm s) h
    rw [hloaded ha, effectiveAddress, mod16, sumImm, State.regVal, sext7_eq_toInt]
  case jalr =>
    obtain ⟨-, -, htarget, -⟩ := exec_next_elim (jalrLinksAndJumps a b x s hab) h
    exact htarget
  case sw =>
    obtain ⟨-, -, hregs, -⟩ := exec_next_elim (swStoresTheWord a b imm s) h
    exact hregs
  case beq =>
    obtain ⟨-, -, hregs, -⟩ := exec_next_elim (beqBranchesOnEquality a b imm s) h
    exact hregs

/-! ### The self-branch -/

/-- A branch by -1 on a register equal to itself goes to its own address, so it changes nothing. -/
theorem exec_beq_self (s : State) (a : Reg) : exec (.beq a a 127) s = .next s := by
  have himm : (127 : BitVec 7).toInt = -1 := by decide
  have htarget : branchTarget s a a 127 = s.pc := by
    rw [branchTarget_eq, if_pos rfl, himm]
    omega
  rw [exec_beq, htarget]
  rfl

theorem State.Ready.countStep {s : State} (hs : s.Ready) : s.countStep.Ready :=
  ⟨hs.noFault, hs.running, hs.pcLow, hs.pcHigh⟩

/-- A step of the self-branch only counts. -/
theorem step_selfBranch {s : State} (hs : s.Ready)
    (hw : s.readMem s.fetchAddress = 0xC07F) : step s = .next s.countStep := by
  have hdecode : decode (s.readMem s.fetchAddress) = .ok (.beq .r0 .r0 127) := by
    rw [hw]; decide
  rw [step_of_ready hs hdecode, exec_beq_self]
  rfl

/-- Counting leaves the self-branch at the pc, so it goes on for any number of steps. -/
theorem core_run_selfBranch (n : Nat) {s : State} (hs : s.Ready)
    (hw : s.readMem s.fetchAddress = 0xC07F) :
    Host.Core.run Sys2Proof.core n s = .next { s with steps := s.steps + n } := by
  induction n generalizing s with
  | zero => rfl
  | succ n ih =>
    have hrest : Host.Core.run Sys2Proof.core n s.countStep =
        .next { s with steps := s.steps + 1 + n } := ih hs.countStep hw
    rw [Nat.add_assoc, Nat.add_comm 1 n] at hrest
    exact (core_run_succ n s _).2 ⟨s.countStep, step_selfBranch hs hw, hrest⟩

/-- Settles O59: the budget's steps all complete and leave the state RUNNING. -/
theorem selfBranchExhaustsEveryBudget : Obligations.SelfBranchExhaustsEveryBudget := by
  intro s n hs hw hn
  obtain ⟨hexhausted, -⟩ :=
    runOutcomesAreItsSteps n s { s with steps := s.steps + n } hn hs.noFault
  exact hexhausted.2 ⟨core_run_selfBranch n hs hw, hs.running⟩

end Sys2Proof.Machine
end
